-- ==== Sys2Proof/Word.lean ====
section
/-! DEFINITION. The word types of ESBF: `u8` and `u16` of 00_scope.md R7. All values are unsigned. -/

namespace Sys2Proof

/-- A byte, 8 bits numbered 7 down to 0 (R7). -/
abbrev Byte := BitVec 8

/-- A 16-bit value, `u16` of R7. -/
abbrev Half := BitVec 16

end Sys2Proof
end

