-- ==== Sys2Proof/Config.lean ====
section
/-! DEFINITION. The implementation parameters of 00_scope.md R5: the four fixed constants, and the record of those that the
spec leaves as named parameters with a default. The model has no free value: the spec leaves nothing open inside the block
(93_implementation_defined.md, Part 1). -/

namespace Sys2Proof

/-- `CRC_POLY` (R2, R5): fixed, not a free parameter. -/
def crcPoly : Half := 0x1021#16

/-- `CRC_INIT` (R2, R5): fixed, not a free parameter. -/
def crcInit : Half := 0xFFFF#16

/-- `PARSE_PLEN` (R5): the payload length the check path assumes; fixed, not a free parameter. -/
def parsePlen : Nat := 11

/-- `CRC_BYTES` (R5): the CRC bytes written into every frame; fixed, not a free parameter. -/
def crcBytes : Nat := 2

/-- The parameters of R5 that are named parameters of the model (decision D7). -/
structure Params where
  /-- `ALEN_MIN`: smallest address length accepted. -/
  alenMin : Nat
  /-- `ALEN_MAX`: largest address length accepted. -/
  alenMax : Nat
  /-- `PLEN_MAX`: largest payload length `FRM.BUILD` accepts. -/
  plenMax : Nat
  deriving DecidableEq, Repr

/-- `FB_SIZE = 1 + ALEN_MAX + PLEN_MAX + CRC_BYTES` (R5, R6). -/
def Params.fbSize (p : Params) : Nat := 1 + p.alenMax + p.plenMax + crcBytes

/-- The value of every parameter in this hardware, the default column of R5. `exec` and `step` use these. -/
def Params.esbf : Params := { alenMin := 1, alenMax := 5, plenMax := 32 }

end Sys2Proof
end

