-- ==== Sys2Proof/Machine/State.lean ====
section
/-! DEFINITION. The state of ESBF: the whole architectural state of 10_state.md R10, and the two sides of the command port (the
host's events not yet delivered, and the responses given). The reasons a step can stop. The state after reset (R27, R135). -/

namespace Sys2Proof
namespace Machine

/-- The frame buffer `FB` (R20, 20_memory.md R30) as sparse data in one canonical form: offsets strictly rising, and no entry
that holds `0x00`, which is what an unlisted offset reads as (the value of R27 and of invalidate, R81). -/
abbrev Memory := List Host.Cell

/-- What the host may do at the port between two commands: issue a command string (00_scope.md R4) or apply reset
(70_reset_and_hazards.md R135). -/
inductive HostEvent where
  /-- A command string `cmd = opcode :: operands`, so `n ≥ 1` by construction (R4). -/
  | command (opcode : Byte) (operands : List Byte)
  /-- The reset event, between commands only (R135). -/
  | reset
  deriving DecidableEq, Repr

/-- Why the machine stops. The spec's own errors are responses and never stops (60_exceptions.md R115); these two say that an
access left its space, which R37 says cannot be expressed. No state that satisfies the invariant of R21 reaches one. -/
inductive Fault where
  /-- An access to the frame buffer outside `0 .. FB_SIZE - 1`; `offset` is the first byte after the access. Raised by the frame
  buffer accessors of Machine/Ops.lean. Safe: the model stops where the spec gives no access (R8, R37). -/
  | outsideFrameBuffer (offset : Nat)
  /-- A read of a byte string (the command's operands) at an offset it does not have. Raised by the string accessors of
  Machine/Operands.lean. Safe: the model stops where the spec gives no access (R37). -/
  | outsideString (offset : Nat)
  deriving DecidableEq, Repr

/-- Why a step gives an instruction no meaning. -/
inductive Refusal where
  /-- The instruction has no meaning yet; raised by `exec` alone, in no arm now. Safe: the model stops. -/
  | notModelled (mnemonic : String)
  deriving DecidableEq, Repr

/-- The machine's state. `crc` to `fb` are R10's whole architectural state. `pending` and `responses` are the model's own: the host's
side of the command port (log 1). -/
structure State where
  /-- `CRC`, the running checksum of the CRC unit (R12). -/
  crc : Half
  /-- `ALEN` (R13). -/
  alen : Byte
  /-- `PLEN` (R14). -/
  plen : Byte
  /-- `CRCLEN` (R15). -/
  crclen : Byte
  /-- `CHAN` (R16). -/
  chan : Byte
  /-- `PCRC`, the packet's checksum (R17). -/
  pcrc : Half
  /-- `FLEN`, the byte length of the frame held, or 0 (R18). -/
  flen : Half
  /-- `FSTAT`, the status code of the last framer build or check (R19). -/
  fstat : Byte
  /-- `FB`, the frame buffer (R20). -/
  fb : Memory
  /-- The host's events not yet delivered, in the order of issue (R3, R11, R39). -/
  pending : List HostEvent
  /-- The responses given so far, oldest first (R4, R30). The block only adds to them. -/
  responses : List (List Byte)
  deriving DecidableEq, Repr

/-- The state after reset: the table of R27, nothing left unspecified (R135). -/
def State.reset : State where
  crc := 0xFFFF#16
  alen := 0x00#8
  plen := 0x00#8
  crclen := 0x00#8
  chan := 0x00#8
  pcrc := 0x0000#16
  flen := 0x0000#16
  fstat := 0x00#8
  fb := []
  pending := []
  responses := []

end Machine
end Sys2Proof
end

