-- ==== Sys2Proof/Machine/Flags.lean ====
section
/-! DEFINITION. ESBF has no flags and no condition codes (10_state.md R11, 40_crc.md R71). What a command reports is a status
code: this file holds the codes of 60_exceptions.md R116. -/

namespace Sys2Proof
namespace Machine

/-- The status code of a command that meets no error, `OK` (R116). -/
def statusOk : Byte := 0x00#8

/-- The four errors of R115 and R116, the only exceptional events. -/
inductive ErrorKind where
  /-- The operand bytes are fewer than the declared lengths need (R117). -/
  | malformedRequest
  /-- A length is outside the supported range (R118). -/
  | unsupportedLength
  /-- The recomputed CRC differs from the received one (R119). -/
  | crcMismatch
  /-- Reserved opcode or wrong command length (R121). -/
  | illegalCommand
  deriving DecidableEq, Repr

/-- The numeric code of an error, the value of `rsp[0]` and of `FSTAT` (R116). -/
def errorCode (e : ErrorKind) : Byte :=
  match e with
  | .malformedRequest => 0x01#8
  | .unsupportedLength => 0x02#8
  | .crcMismatch => 0x03#8
  | .illegalCommand => 0x04#8

end Machine
end Sys2Proof
end

