-- ==== Sys2Proof/Machine/Operands.lean ====
section
/-! DEFINITION. Reading operands: the byte selections of 00_scope.md R8 on 16-bit values and byte strings, and the fields of a
request blob (30_encoding.md R47, R48). Every read of a string checks its offset (20_memory.md R37). -/

namespace Sys2Proof
namespace Machine

/-- `hi8(v) = v[15:8]` (R8). -/
def hi8 (v : Half) : Byte := v.extractLsb' 8 8

/-- `lo8(v) = v[7:0]` (R8). -/
def lo8 (v : Half) : Byte := v.extractLsb' 0 8

/-- `be16(h, l) = h * 256 + l` (R8). -/
def be16 (h l : Byte) : Half := h ++ l

/-- `v[i]` of a byte string (R8), never outside it (R37). -/
def byteAt (s : List Byte) (i : Nat) : Except Fault Byte :=
  match s[i]? with
  | some b => .ok b
  | none => .error (.outsideString i)

/-- `s[a..b)` (R8), never outside the string (R37). -/
def slice (s : List Byte) (a b : Nat) : Except Fault (List Byte) :=
  if a ≤ b ∧ b ≤ s.length then .ok ((s.drop a).take (b - a)) else .error (.outsideString b)

/-- The size of the fixed part of a blob: the channel byte and the five header bytes (R47). -/
def blobFixed : Nat := 6

/-- Blob offset 0, `channel` (R47, R48). -/
def blobChannel (blob : List Byte) : Except Fault Byte := byteAt blob 0

/-- Blob offset 1, `address_length` (R47, R48). -/
def blobAlen (blob : List Byte) : Except Fault Byte := byteAt blob 1

/-- Blob offset 2, `payload_length` (R47, R48). -/
def blobPlen (blob : List Byte) : Except Fault Byte := byteAt blob 2

/-- Blob offset 5, `crc_length` (R47, R48). Offsets 3 and 4, `sequence_number` and `no_ack`, are never read (R53). -/
def blobCrclen (blob : List Byte) : Except Fault Byte := byteAt blob 5

/-- `blob[6 .. 6+alen)` (R48). -/
def blobAddress (blob : List Byte) (alen : Byte) : Except Fault (List Byte) :=
  slice blob blobFixed (blobFixed + alen.toNat)

/-- `blob[6+alen .. 6+alen+plen)` (R48). -/
def blobPayload (blob : List Byte) (alen plen : Byte) : Except Fault (List Byte) :=
  slice blob (blobFixed + alen.toNat) (blobFixed + alen.toNat + plen.toNat)

/-- `address = raw[1 .. 1+alen)` (R49, 42_framer_check.md R103). -/
def rawAddress (raw : List Byte) (alen : Byte) : Except Fault (List Byte) :=
  slice raw 1 (1 + alen.toNat)

/-- `payload = raw[1+alen .. 1+alen+11)` (R49, R103). -/
def rawPayload (raw : List Byte) (alen : Byte) : Except Fault (List Byte) :=
  slice raw (1 + alen.toNat) (1 + alen.toNat + parsePlen)

/-- The received CRC byte at the lower offset, `raw[1+alen+11]` (R49, R103). -/
def rawCrcHi (raw : List Byte) (alen : Byte) : Except Fault Byte := byteAt raw (1 + alen.toNat + parsePlen)

/-- The received CRC byte at the higher offset, `raw[2+alen+11]` (R49, R103). -/
def rawCrcLo (raw : List Byte) (alen : Byte) : Except Fault Byte := byteAt raw (2 + alen.toNat + parsePlen)

end Machine
end Sys2Proof
end

