-- ==== Sys2Proof/Machine/Ops.lean ====
section
/-! DEFINITION. The shared operations: the frame buffer's accessors, responding, raising an error (60_exceptions.md R120, R121:
the whole of what an error does; there is no trap entry and no return, R124, R125), invalidate (R81), and reset (R135). -/

namespace Sys2Proof
namespace Machine

/-! ### The frame buffer -/

/-- `FB[a]` in the sparse form: an unlisted offset reads as `0x00` (R27, R81). -/
def fbGet (m : Memory) (a : Nat) : Byte :=
  match m with
  | [] => 0x00#8
  | (k, v) :: rest => if k = a then v else fbGet rest a

/-- `FB[a] <- b` in the sparse form, keeping it canonical. -/
def fbSet (m : Memory) (a : Nat) (b : Byte) : Memory :=
  match m with
  | [] => if b = 0x00#8 then [] else [(a, b)]
  | (k, v) :: rest =>
    if a < k then (if b = 0x00#8 then (k, v) :: rest else (a, b) :: (k, v) :: rest)
    else if a = k then (if b = 0x00#8 then rest else (a, b) :: rest)
    else (k, v) :: fbSet rest a b

/-- Entries at offsets at least `lo` and below `size`, strictly rising, none holding `0x00`. -/
def wfFrom (lo size : Nat) (m : Memory) : Bool :=
  match m with
  | [] => true
  | (k, v) :: rest => decide (lo ≤ k) && decide (k < size) && decide (v ≠ 0x00#8) && wfFrom (k + 1) size rest

/-- The frame buffer's canonical form, with every entry inside the space `0 .. FB_SIZE - 1` (R30). -/
def Memory.wf (p : Params) (m : Memory) : Bool := wfFrom 0 p.fbSize m

/-- The `n` bytes `FB[a], FB[a+1], ...`. -/
def fbBytes (m : Memory) (a n : Nat) : List Byte :=
  match n with
  | 0 => []
  | k + 1 => fbGet m a :: fbBytes m (a + 1) k

/-- `FB[a+i] <- s[i]` for every byte of `s`. -/
def fbSetBytes (m : Memory) (a : Nat) (s : List Byte) : Memory :=
  match s with
  | [] => m
  | b :: rest => fbSetBytes (fbSet m a b) (a + 1) rest

/-- A read of one byte of `FB` (R31, R36), inside the space only (R37). -/
def fbRead (p : Params) (m : Memory) (a : Nat) : Except Fault Byte :=
  if a < p.fbSize then .ok (fbGet m a) else .error (.outsideFrameBuffer (a + 1))

/-- `MemRead(FB, a, n)`, which requires `a + n ≤ FB_SIZE` (R8). -/
def memRead (p : Params) (m : Memory) (a n : Nat) : Except Fault (List Byte) :=
  if a + n ≤ p.fbSize then .ok (fbBytes m a n) else .error (.outsideFrameBuffer (a + n))

/-- `MemWrite(FB, a, n, s)` with `n = len(s)`, which requires `a + n ≤ FB_SIZE` (R8). -/
def memWrite (p : Params) (m : Memory) (a : Nat) (s : List Byte) : Except Fault Memory :=
  if a + s.length ≤ p.fbSize then .ok (fbSetBytes m a s) else .error (.outsideFrameBuffer (a + s.length))

/-! ### Responses, errors, invalidate, reset -/

/-- `respond r`: the command's one response (R8, R56). -/
def respond (r : List Byte) (s : State) : State := { s with responses := s.responses ++ [r] }

/-- `raise e` (R120, R121). The three framer errors write `FSTAT` and answer the code, and nothing more is written after invalidate;
an illegal command answers its code and writes no register at all, not even `FSTAT`. -/
def raise (e : ErrorKind) (s : State) : State :=
  match e with
  | .malformedRequest => respond [errorCode .malformedRequest] { s with fstat := errorCode .malformedRequest }
  | .unsupportedLength => respond [errorCode .unsupportedLength] { s with fstat := errorCode .unsupportedLength }
  | .crcMismatch => respond [errorCode .crcMismatch] { s with fstat := errorCode .crcMismatch }
  | .illegalCommand => respond [errorCode .illegalCommand] s

/-- `invalidate()` (R81): the packet registers and every `FB` byte to zero. `FSTAT` and `CRC` stay. -/
def invalidate (s : State) : State :=
  { s with flen := 0x0000#16, alen := 0x00#8, plen := 0x00#8, crclen := 0x00#8, chan := 0x00#8, pcrc := 0x0000#16, fb := [] }

/-- The reset event (R135): every piece of the block's state to the table of R27. What the host has issued and what it has been
answered are outside the block and stay (log 6). -/
def applyReset (s : State) : State :=
  { State.reset with pending := s.pending, responses := s.responses }

/-- A computation that may leave a space, as the outcome of a step. -/
def outcomeOf (r : Except Fault State) : Host.Outcome State Fault Refusal :=
  match r with
  | .ok s => .next s
  | .error f => .fault f

end Machine
end Sys2Proof
end

