-- ==== Sys2Proof/Machine/Crc.lean ====
section
/-! DEFINITION. The CRC unit (40_crc.md): the function `crc_update` and the five CRC commands. None of them reads or writes any
framer state. -/

namespace Sys2Proof
namespace Machine

/-- One iteration of the loop of R65, `step` of R66: bit 15 is tested before the shift. -/
def crcStep (c : Half) : Half :=
  if c.getLsbD 15 then (c <<< 1) ^^^ crcPoly else c <<< 1

/-- The iterations of R65: `step^n`, the identity for `n = 0` (R66). -/
def crcSteps (n : Nat) (c : Half) : Half :=
  match n with
  | 0 => c
  | k + 1 => crcSteps k (crcStep c)

/-- `crc_update(crc, data, bits)` (R65): `data` into the high byte, then `bits` iterations; every `bits` of 0 to 255 is legal (R67). -/
def crcUpdate (crc : Half) (data bits : Byte) : Half :=
  crcSteps bits.toNat (crc ^^^ (data.setWidth 16 <<< 8))

/-- The checksum of a byte sequence from a start value: chained byte-granular updates (R70). -/
def crcBytesFrom (c : Half) (bytes : List Byte) : Half :=
  match bytes with
  | [] => c
  | b :: rest => crcBytesFrom (crcUpdate c b 0x08#8) rest

/-- The response of every CRC command, `[0x00, hi8(CRC), lo8(CRC)]` with `CRC` the value after the command (30_encoding.md R56). -/
def respondCrc (s : State) : State := respond [statusOk, hi8 s.crc, lo8 s.crc] s

/-- `CRC <- v`, then the response of a CRC command. -/
def loadCrc (v : Half) (s : State) : State := respondCrc { s with crc := v }

/-- `CRC.INIT` (R72). -/
def execCrcInit (s : State) : Host.Outcome State Fault Refusal :=
  .next (loadCrc crcInit s)

/-- `CRC.LOAD hi, lo` (R73). -/
def execCrcLoad (hi lo : Byte) (s : State) : Host.Outcome State Fault Refusal :=
  .next (loadCrc (be16 hi lo) s)

/-- `CRC.UPDB data` (R74): the byte-granular update. -/
def execCrcUpdb (data : Byte) (s : State) : Host.Outcome State Fault Refusal :=
  .next (loadCrc (crcUpdate s.crc data 0x08#8) s)

/-- `CRC.UPDN data, bits` (R75): the bit-granular update. -/
def execCrcUpdn (data bits : Byte) (s : State) : Host.Outcome State Fault Refusal :=
  .next (loadCrc (crcUpdate s.crc data bits) s)

/-- `CRC.READ` (R76): no state of the block changes. -/
def execCrcRead (s : State) : Host.Outcome State Fault Refusal :=
  .next (respondCrc s)

end Machine
end Sys2Proof
end

