-- ==== Sys2Proof/Machine/Framer.lean ====
section
/-! DEFINITION. The framer unit: frame assembly (41_framer_build.md), frame check and read-back (42_framer_check.md), and the
derived quantities of 10_state.md R21 to R23. The operations take the parameters of 00_scope.md R5; the meanings use this
hardware's values. -/

namespace Sys2Proof
namespace Machine

/-! ### The parts of a frame -/

/-- The two preamble bytes: the choice by bit 7 of the first address byte (R85). -/
def preambleFor (first : Byte) : Byte := if first.getLsbD 7 then 0xAA#8 else 0x55#8

/-- The preamble of an address, from `address[0]` (R85). -/
def preamble (address : List Byte) : Except Fault Byte := do
  let first ← byteAt address 0
  .ok (preambleFor first)

/-- `L = 1 + alen + plen + 2`, whatever `crclen` is (R84). -/
def frameLength (alen plen : Nat) : Nat := 1 + alen + plen + crcBytes

/-- `frame_crc(address, payload)` (R92): the bytes from `0xFFFF`, then one update by the trailing bit, 0. -/
def frameCrc (address payload : List Byte) : Half :=
  crcUpdate (crcBytesFrom crcInit (address ++ payload)) 0x00#8 0x01#8

/-- Preamble, address and payload into `FB` (R85, R86). -/
def writeBody (p : Params) (m : Memory) (address payload : List Byte) : Except Fault Memory := do
  let pre ← preamble address
  let m1 ← memWrite p m 0 [pre]
  let m2 ← memWrite p m1 1 address
  memWrite p m2 (1 + address.length) payload

/-- `for k in start .. start+n-1: c <- crc_update(c, FB[k], 8)` (R87). -/
def crcOverFrame (p : Params) (m : Memory) (start n : Nat) (c : Half) : Except Fault Half :=
  match n with
  | 0 => .ok c
  | k + 1 => do
    let b ← fbRead p m start
    crcOverFrame p m (start + 1) k (crcUpdate c b 0x08#8)

/-- The checksum as `FRM.BUILD` computes it from `FB`: offsets 1 to `alen + plen` (R87), then the top bit of the byte that follows
the payload, at the generic offset `alen + 1 + plen` (R88, R89). -/
def windowCrc (p : Params) (m : Memory) (alen plen : Nat) : Except Fault Half := do
  let c ← crcOverFrame p m 1 (alen + plen) crcInit
  let t ← fbRead p m (alen + 1 + plen)
  .ok (crcUpdate c (t &&& 0x80#8) 0x01#8)

/-- Both CRC bytes, high byte first (R90, 20_memory.md R33). -/
def writeCrc (p : Params) (m : Memory) (alen plen : Nat) (c : Half) : Except Fault Memory := do
  let m1 ← memWrite p m (1 + alen + plen) [hi8 c]
  memWrite p m1 (2 + alen + plen) [lo8 c]

/-- Completion (R91, R107): the packet registers, then the response `[0x00] ++ FB[0..L)`. -/
def holdPacket (p : Params) (alen plen crclen chan : Byte) (c : Half) (m : Memory) (s : State) : Except Fault State := do
  let frame ← memRead p m 0 (frameLength alen.toNat plen.toNat)
  .ok (respond (statusOk :: frame)
    { s with alen := alen, plen := plen, crclen := crclen, chan := chan, pcrc := c,
             flen := BitVec.ofNat 16 (frameLength alen.toNat plen.toNat), fstat := statusOk, fb := m })

/-! ### The commands -/

/-- The address lengths accepted: `ALEN_MIN` to `ALEN_MAX` (R83, R102). -/
def alenSupported (p : Params) (alen : Byte) : Bool := decide (p.alenMin ≤ alen.toNat) && decide (alen.toNat ≤ p.alenMax)

/-- The CRC lengths accepted: 1 and 2 (R83, R102). -/
def crclenSupported (crclen : Byte) : Bool := crclen == 0x01#8 || crclen == 0x02#8

/-- The payload lengths `FRM.BUILD` accepts: 0 to `PLEN_MAX` (R83). -/
def plenSupported (p : Params) (plen : Byte) : Bool := decide (plen.toNat ≤ p.plenMax)

/-- `FRM.BUILD` after its length checks: R84 to R91. -/
def assemble (p : Params) (blob : List Byte) (alen plen crclen : Byte) (s : State) : Except Fault State := do
  let address ← blobAddress blob alen
  let payload ← blobPayload blob alen plen
  let m ← writeBody p s.fb address payload
  let c ← windowCrc p m alen.toNat plen.toNat
  let m' ← writeCrc p m alen.toNat plen.toNat c
  let chan ← blobChannel blob
  holdPacket p alen plen crclen chan c m' s

/-- `FRM.BUILD`, complete (R93): invalidate, the blob's length (R82), the supported lengths (R83), assembly. -/
def build (p : Params) (blob : List Byte) (s : State) : Except Fault State :=
  if blob.length < blobFixed then .ok (raise .malformedRequest (invalidate s))
  else do
    let alen ← blobAlen blob
    let plen ← blobPlen blob
    if blob.length < blobFixed + alen.toNat + plen.toNat then .ok (raise .malformedRequest (invalidate s))
    else do
      let crclen ← blobCrclen blob
      if alenSupported p alen && plenSupported p plen && crclenSupported crclen then
        assemble p blob alen plen crclen (invalidate s)
      else .ok (raise .unsupportedLength (invalidate s))

/-- `FRM.CHECK` after its length checks: recomputation (R104), comparison (R105), and on a match the packet (R107). -/
def checkFrame (p : Params) (alen crclen : Byte) (raw : List Byte) (s : State) : Except Fault State := do
  let address ← rawAddress raw alen
  let payload ← rawPayload raw alen
  let rxHi ← rawCrcHi raw alen
  let rxLo ← rawCrcLo raw alen
  let c := frameCrc address payload
  if rxHi = hi8 c ∧ rxLo = lo8 c then do
    let m ← writeBody p s.fb address payload
    let m' ← writeCrc p m alen.toNat parsePlen c
    holdPacket p alen (BitVec.ofNat 8 parsePlen) crclen 0x00#8 c m' s
  else .ok (raise .crcMismatch s)

/-- `FRM.CHECK`, complete (R108): invalidate, the bounds (R101), the supported lengths (R102), the comparison. -/
def check (p : Params) (alen crclen : Byte) (raw : List Byte) (s : State) : Except Fault State :=
  if raw.length < frameLength alen.toNat parsePlen then .ok (raise .malformedRequest (invalidate s))
  else if alenSupported p alen && crclenSupported crclen then checkFrame p alen crclen raw (invalidate s)
  else .ok (raise .unsupportedLength (invalidate s))

/-- `FRM.READ`'s response `[0x00] ++ FB[0..FLEN)` (R112). -/
def readFrame (p : Params) (s : State) : Except Fault State := do
  let frame ← memRead p s.fb 0 s.flen.toNat
  .ok (respond (statusOk :: frame) s)

/-- `FRM.INFO`'s ten response bytes (R113). -/
def infoBytes (s : State) : List Byte :=
  [statusOk, s.fstat, s.alen, s.plen, s.crclen, s.chan, hi8 s.pcrc, lo8 s.pcrc, hi8 s.flen, lo8 s.flen]

/-- `FRM.BUILD blob` (R80, R93). -/
def execFrmBuild (blob : List Byte) (s : State) : Host.Outcome State Fault Refusal :=
  outcomeOf (build Params.esbf blob s)

/-- `FRM.CHECK alen, crclen, raw` (R100, R108). -/
def execFrmCheck (alen crclen : Byte) (raw : List Byte) (s : State) : Host.Outcome State Fault Refusal :=
  outcomeOf (check Params.esbf alen crclen raw s)

/-- `FRM.READ` (R112): no state of the block changes, not even `FSTAT`. -/
def execFrmRead (s : State) : Host.Outcome State Fault Refusal :=
  outcomeOf (readFrame Params.esbf s)

/-- `FRM.INFO` (R113): no state of the block changes. -/
def execFrmInfo (s : State) : Host.Outcome State Fault Refusal :=
  .next (respond (infoBytes s) s)

/-! ### Derived quantities (10_state.md R21 to R23) -/

/-- The framer holds a packet exactly when `FLEN ≠ 0` (R21). -/
def holdsPacket (s : State) : Bool := s.flen != 0x0000#16

/-- The source's `bit_length`, `FLEN * 8` (R22). -/
def bitLength (s : State) : Nat := s.flen.toNat * 8

/-- The packet's `address` field, `FB[1 .. 1+ALEN)` (R23). -/
def packetAddress (s : State) : List Byte := fbBytes s.fb 1 s.alen.toNat

/-- The packet's `payload` field, `FB[1+ALEN .. 1+ALEN+PLEN)` (R23). -/
def packetPayload (s : State) : List Byte := fbBytes s.fb (1 + s.alen.toNat) s.plen.toNat

/-- The packet's `crc` field as a byte string: the first `CRCLEN` bytes of the frame's CRC field (R23). -/
def packetCrcField (s : State) : List Byte := fbBytes s.fb (1 + s.alen.toNat + s.plen.toNat) s.crclen.toNat

/-- The packet's `bytes` field, `FB[0 .. FLEN)` (R23). -/
def packetBytes (s : State) : List Byte := fbBytes s.fb 0 s.flen.toNat

end Machine
end Sys2Proof
end

