-- ==== Sys2Proof/Syntax.lean ====
section
/-! DEFINITION. The nine commands of 30_encoding.md R50, one constructor per row of spec/opcode_table.json, with the operand
bytes of R45 and R49. -/

namespace Sys2Proof

/-- A command with a well-formed length. The operands are the bytes after the opcode. -/
inductive Instr where
  /-- `CRC.INIT` (R72), format `C0`. -/
  | crcInit
  /-- `CRC.LOAD hi, lo` (R73), format `C2`. -/
  | crcLoad (hi lo : Byte)
  /-- `CRC.UPDB data` (R74), format `C1`. -/
  | crcUpdb (data : Byte)
  /-- `CRC.UPDN data, bits` (R75), format `C2`. -/
  | crcUpdn (data bits : Byte)
  /-- `CRC.READ` (R76), format `C0`. -/
  | crcRead
  /-- `FRM.BUILD blob` (R80), format `CB`: `blob = cmd[1..n)`, which may be empty. -/
  | frmBuild (blob : List Byte)
  /-- `FRM.CHECK alen, crclen, raw` (R100), format `CK`: `raw = cmd[3..n)`, which may be empty. -/
  | frmCheck (alen crclen : Byte) (raw : List Byte)
  /-- `FRM.READ` (R112), format `C0`. -/
  | frmRead
  /-- `FRM.INFO` (R113), format `C0`. -/
  | frmInfo
  deriving DecidableEq, Repr

end Sys2Proof
end

