-- ==== Sys2Proof/Machine/Dispatch.lean ====
section
/-! DEFINITION. The dispatch of the nine commands of 30_encoding.md R50 to their meanings. -/

namespace Sys2Proof
namespace Machine

def exec (i : Instr) (s : State) : Host.Outcome State Fault Refusal :=
  match i with
  | .crcInit => Sys2Proof.Machine.execCrcInit s
  | .crcLoad hi lo => Sys2Proof.Machine.execCrcLoad hi lo s
  | .crcUpdb data => Sys2Proof.Machine.execCrcUpdb data s
  | .crcUpdn data bits => Sys2Proof.Machine.execCrcUpdn data bits s
  | .crcRead => Sys2Proof.Machine.execCrcRead s
  | .frmBuild blob => Sys2Proof.Machine.execFrmBuild blob s
  | .frmCheck alen crclen raw => Sys2Proof.Machine.execFrmCheck alen crclen raw s
  | .frmRead => Sys2Proof.Machine.execFrmRead s
  | .frmInfo => Sys2Proof.Machine.execFrmInfo s

end Machine
end Sys2Proof
end

