-- ==== Sys2Proof/WellFormed.lean ====
section
/-! DEFINITION. Well-formedness: of the parameters (00_scope.md R6), of a command string (R4), of a command term. -/

namespace Sys2Proof

/-- The constraints of R6 on the parameters. The third constraint of R6, on `FB_SIZE`, is the definition `Params.fbSize`. -/
def Params.wf (p : Params) : Bool :=
  decide (1 ≤ p.alenMin) && decide (p.alenMin ≤ p.alenMax) && decide (p.alenMax ≤ 255) &&
    decide (parsePlen ≤ p.plenMax) && decide (p.plenMax ≤ 255)

/-- A command is a byte string with `n ≥ 1` (R4): the empty string is not a command and cannot be issued (R55). -/
def commandWf (cmd : List Byte) : Bool := !cmd.isEmpty

/-- Every term of `Instr` is a well-formed command: its operands are bytes by their type, the tails `blob` and `raw` may have any
length (30_encoding.md R45; no upper bound, R4), and no operand value makes a command illegal (60_exceptions.md R123). A length
that the framer does not support is an error response of a well-formed command, not an ill-formed command. -/
def Instr.wf (i : Instr) : Bool :=
  match i with
  | .crcInit => true
  | .crcLoad _ _ => true
  | .crcUpdb _ => true
  | .crcUpdn _ _ => true
  | .crcRead => true
  | .frmBuild _ => true
  | .frmCheck _ _ _ => true
  | .frmRead => true
  | .frmInfo => true

end Sys2Proof
end

