-- ==== Sys2Proof/Decode.lean ====
section
/-! DEFINITION. The opcode map of 30_encoding.md R50, the decoder (R46, R51, R52, R55), the encoder, and the reading of a
table word that the host asks for. -/

namespace Sys2Proof

/-- The command formats of R45. -/
inductive Format where
  | c0 | c1 | c2 | cb | ck
  deriving DecidableEq, Repr

/-- The required length of a command of each format (R45, R46). -/
def Format.lengthOk (f : Format) (n : Nat) : Bool :=
  match f with
  | .c0 => n == 1
  | .c1 => n == 2
  | .c2 => n == 3
  | .cb => decide (1 ≤ n)
  | .ck => decide (3 ≤ n)

/-- The shortest length a format allows (R45). -/
def Format.minLength (f : Format) : Nat :=
  match f with
  | .c0 => 1
  | .c1 => 2
  | .c2 => 3
  | .cb => 1
  | .ck => 3

/-- The nine operations of R50, by mnemonic. -/
inductive Op where
  | crcInit | crcLoad | crcUpdb | crcUpdn | crcRead | frmBuild | frmCheck | frmRead | frmInfo
  deriving DecidableEq, Repr

/-- The operation a command belongs to. -/
def opOf (i : Instr) : Op :=
  match i with
  | .crcInit => .crcInit
  | .crcLoad _ _ => .crcLoad
  | .crcUpdb _ => .crcUpdb
  | .crcUpdn _ _ => .crcUpdn
  | .crcRead => .crcRead
  | .frmBuild _ => .frmBuild
  | .frmCheck _ _ _ => .frmCheck
  | .frmRead => .frmRead
  | .frmInfo => .frmInfo

/-- One row of the opcode map R50. -/
structure OpcodeRow where
  opcode : Byte
  op : Op
  format : Format
  deriving DecidableEq, Repr

/-- The opcode map, row by row as R50 lists it. -/
def opcodeMap : List OpcodeRow :=
  [⟨0x01#8, .crcInit, .c0⟩,
   ⟨0x02#8, .crcLoad, .c2⟩,
   ⟨0x03#8, .crcUpdb, .c1⟩,
   ⟨0x04#8, .crcUpdn, .c2⟩,
   ⟨0x05#8, .crcRead, .c0⟩,
   ⟨0x10#8, .frmBuild, .cb⟩,
   ⟨0x11#8, .frmCheck, .ck⟩,
   ⟨0x12#8, .frmRead, .c0⟩,
   ⟨0x13#8, .frmInfo, .c0⟩]

/-- The row of an opcode: decoding looks at the whole byte (R50). `none` means a reserved opcode (R51). -/
def opcodeRow (b : Byte) : Option OpcodeRow := opcodeMap.find? (fun r => r.opcode == b)

/-- Why a byte string is no well-formed command. -/
inductive Illegal where
  /-- The empty string: not a command (R55). The port cannot deliver it (R4). -/
  | emptyString
  /-- R51: the opcode is not in R50. -/
  | reservedOpcode (opcode : Byte)
  /-- R52: the opcode is in R50 and the length `n` is not the one its format requires. -/
  | wrongLength (opcode : Byte) (n : Nat)
  deriving DecidableEq, Repr

/-- Format `C0`: no byte after the opcode. -/
def noOperands (i : Instr) (args : List Byte) : Option Instr :=
  match args with
  | [] => some i
  | _ :: _ => none

/-- Format `C1`: one byte after the opcode. -/
def oneOperand (mk : Byte → Instr) (args : List Byte) : Option Instr :=
  match args with
  | [data] => some (mk data)
  | _ => none

/-- Format `C2`: two bytes after the opcode. -/
def twoOperands (mk : Byte → Byte → Instr) (args : List Byte) : Option Instr :=
  match args with
  | [b1, b2] => some (mk b1 b2)
  | _ => none

/-- Format `CK`: two bytes and a tail of any length after the opcode. -/
def twoOperandsAndTail (mk : Byte → Byte → List Byte → Instr) (args : List Byte) : Option Instr :=
  match args with
  | b1 :: b2 :: tail => some (mk b1 b2 tail)
  | _ => none

/-- Operand extraction from the bytes after the opcode (R45, R49); `none` when there are too few or too many of them. -/
def operandsOf (op : Op) (args : List Byte) : Option Instr :=
  match op with
  | .crcInit => noOperands .crcInit args
  | .crcLoad => twoOperands .crcLoad args
  | .crcUpdb => oneOperand .crcUpdb args
  | .crcUpdn => twoOperands .crcUpdn args
  | .crcRead => noOperands .crcRead args
  | .frmBuild => some (.frmBuild args)
  | .frmCheck => twoOperandsAndTail .frmCheck args
  | .frmRead => noOperands .frmRead args
  | .frmInfo => noOperands .frmInfo args

/-- The decoder: total, with "illegal" as its own verdict (R46, R51, R52, R55). It finds the format from the opcode and compares
the delivered length with it; it computes no length from the bytes (R46). -/
def decode (cmd : List Byte) : Except Illegal Instr :=
  match cmd with
  | [] => .error .emptyString
  | opcode :: args =>
    match opcodeRow opcode with
    | none => .error (.reservedOpcode opcode)
    | some row =>
      match operandsOf row.op args with
      | some i => .ok i
      | none => .error (.wrongLength opcode (args.length + 1))

/-- The encoder, written from the encodings of R50 and R45. -/
def encode (i : Instr) : List Byte :=
  match i with
  | .crcInit => [0x01#8]
  | .crcLoad hi lo => [0x02#8, hi, lo]
  | .crcUpdb data => [0x03#8, data]
  | .crcUpdn data bits => [0x04#8, data, bits]
  | .crcRead => [0x05#8]
  | .frmBuild blob => 0x10#8 :: blob
  | .frmCheck alen crclen raw => 0x11#8 :: alen :: crclen :: raw
  | .frmRead => [0x12#8]
  | .frmInfo => [0x13#8]

/-- The `count` low bytes of `w`, the least significant first: byte `k` of a command is bits `8k+7 .. 8k` of the table's number. -/
def wordBytes (count w : Nat) : List Byte :=
  match count with
  | 0 => []
  | n + 1 => BitVec.ofNat 8 w :: wordBytes n (w / 256)

/-- The shortest command length of an opcode's format; one byte for a reserved opcode. -/
def minCommandLength (opcode : Byte) : Nat :=
  match opcodeRow opcode with
  | some row => row.format.minLength
  | none => 1

/-- The command string of a table word: its own bytes (at least the opcode), then operand bytes of zeros up to the shortest length
that the opcode's format allows (log 9). -/
def tableCommand (nbits w : Nat) : List Byte :=
  let given := wordBytes (max 1 ((nbits + 7) / 8)) w
  given ++ List.replicate (minCommandLength (BitVec.ofNat 8 w) - given.length) 0x00#8

/-- The instruction the decoder reads from a table word. -/
def decodeTableWord (nbits w : Nat) : Option Instr :=
  match decode (tableCommand nbits w) with
  | .ok i => some i
  | .error _ => none

end Sys2Proof
end

