-- ==== Sys2Proof/Machine/Port.lean ====
section
/-! DEFINITION. The command port (00_scope.md R3, R4): taking the next event, and placing a command as the next one. -/

namespace Sys2Proof
namespace Machine

/-- A command string as a host event; `none` for the empty string, which cannot be issued (R4, 30_encoding.md R55). -/
def commandEvent (cmd : List Byte) : Option HostEvent :=
  match cmd with
  | [] => none
  | opcode :: operands => some (.command opcode operands)

/-- The state with one more event issued, to be delivered after those already pending. -/
def issue (e : HostEvent) (s : State) : State := { s with pending := s.pending ++ [e] }

/-- The state with a command string placed as the next event to be delivered. -/
def deliverNext (cmd : List Byte) (s : State) : State :=
  match commandEvent cmd with
  | some e => { s with pending := e :: s.pending }
  | none => s

/-- The state once the first pending event has been taken. -/
def takeEvent (rest : List HostEvent) (s : State) : State := { s with pending := rest }

end Machine
end Sys2Proof
end

