-- ==== Sys2Proof/Machine/Deliver.lean ====
section
/-! DEFINITION. What the block does with one event of the host: a command string is decoded and executed to completion, or answered as
illegal; reset is applied (00_scope.md R3, R4; 70_reset_and_hazards.md R135). -/

namespace Sys2Proof
namespace Machine

/-- A delivered command string: decoded and executed, or answered as an illegal command before any effect (30_encoding.md R51, R52,
60_exceptions.md R121). -/
def runCommand (cmd : List Byte) (s : State) : Host.Outcome State Fault Refusal :=
  match decode cmd with
  | .ok i => exec i s
  | .error _ => .next (raise .illegalCommand s)

/-- A delivered event. -/
def runEvent (e : HostEvent) (s : State) : Host.Outcome State Fault Refusal :=
  match e with
  | .reset => .next (applyReset s)
  | .command opcode operands => runCommand (opcode :: operands) s

/-- The next event of the host, taken and run; with no event pending the block waits and nothing changes (log 2). -/
def runNext (s : State) : Host.Outcome State Fault Refusal :=
  match s.pending with
  | [] => .next s
  | e :: rest => runEvent e (takeEvent rest s)

end Machine
end Sys2Proof
end

