-- ==== Sys2Proof/Machine/Step.lean ====
section
/-! DEFINITION. One step of the machine: the next event of the host is taken and executed to completion (00_scope.md R3). -/

namespace Sys2Proof
namespace Machine

/-- One step: the next event, whole (R3). -/
def step (s : State) : Host.Outcome State Fault Refusal := runNext s

/-- The state with a table word's command placed as the next event that step takes (log 3, log 9). -/
def State.withFetchWord (s : State) (nbits w : Nat) : State := deliverNext (tableCommand nbits w) s

end Machine
end Sys2Proof
end

