-- ==== Sys2Proof/Machine/Assembler.lean ====
section
/-! DEFINITION. The notation for commands (30_encoding.md R57) and the pseudo-commands (R58). Text is a list of characters, one
command per line. The two brace characters are written by their codes. Log 10 says what R57 leaves to a reader. -/

namespace Sys2Proof
namespace Machine

/-- The names that may begin a line: the mnemonics of R50 and the pseudo-commands of R58 that have a name of their own. -/
inductive AsmName where
  | op (o : Op)
  | crcUpd | crcBit | crcBytes
  deriving DecidableEq, Repr

/-- An operand as R57 and R58 write it. -/
inductive AsmOperand where
  /-- One binary digit, the operand of `CRC.BIT`. -/
  | bit (b : Bool)
  /-- `0x` and two hexadecimal digits. -/
  | byte (b : Byte)
  /-- `0x` and four hexadecimal digits. -/
  | half (v : Half)
  /-- A byte string in braces. -/
  | bytes (s : List Byte)
  deriving DecidableEq, Repr

/-- The opening brace. -/
def openBrace : Char := Char.ofNat 123

/-- The closing brace. -/
def closeBrace : Char := Char.ofNat 125

/-! ### From tokens to commands -/

/-- The blob of the field form of `FRM.BUILD` (R58): the lengths are those of the strings, the reserved bytes `00`; `none` when a
length does not fit its byte. -/
def fieldBlob (chan crclen : Byte) (address payload : List Byte) : Option (List Byte) :=
  if address.length ≤ 255 ∧ payload.length ≤ 255 then
    some ([chan, BitVec.ofNat 8 address.length, BitVec.ofNat 8 payload.length, 0x00#8, 0x00#8, crclen] ++ address ++ payload)
  else none

/-- A name that takes no operand. -/
def tokens0 (is : List Instr) (operands : List AsmOperand) : Option (List Instr) :=
  match operands with
  | [] => some is
  | _ :: _ => none

/-- A name that takes one 16-bit value. -/
def tokensHalf (mk : Half → List Instr) (operands : List AsmOperand) : Option (List Instr) :=
  match operands with
  | [.half v] => some (mk v)
  | _ => none

/-- A name that takes one byte. -/
def tokensByte (mk : Byte → List Instr) (operands : List AsmOperand) : Option (List Instr) :=
  match operands with
  | [.byte d] => some (mk d)
  | _ => none

/-- A name that takes two bytes. -/
def tokensByteByte (mk : Byte → Byte → List Instr) (operands : List AsmOperand) : Option (List Instr) :=
  match operands with
  | [.byte d, .byte k] => some (mk d k)
  | _ => none

/-- A name that takes one bit. -/
def tokensBit (mk : Bool → List Instr) (operands : List AsmOperand) : Option (List Instr) :=
  match operands with
  | [.bit b] => some (mk b)
  | _ => none

/-- A name that takes one byte string. -/
def tokensString (mk : List Byte → List Instr) (operands : List AsmOperand) : Option (List Instr) :=
  match operands with
  | [.bytes s] => some (mk s)
  | _ => none

/-- The operands of `FRM.CHECK`: two bytes and a byte string. -/
def tokensCheck (operands : List AsmOperand) : Option (List Instr) :=
  match operands with
  | [.byte alen, .byte crclen, .bytes raw] => some [.frmCheck alen crclen raw]
  | _ => none

/-- The operands of `FRM.BUILD`: a blob, or the field form of R58. -/
def tokensBuild (operands : List AsmOperand) : Option (List Instr) :=
  match operands with
  | [.bytes blob] => some [.frmBuild blob]
  | [.byte chan, .byte crclen, .bytes address, .bytes payload] =>
    (fieldBlob chan crclen address payload).map (fun blob => [.frmBuild blob])
  | _ => none

/-- The commands of one line, a pseudo-command by its exact expansion (R58); `none` when the operands do not fit the name. -/
def assembleTokens (name : AsmName) (operands : List AsmOperand) : Option (List Instr) :=
  match name with
  | .op .crcInit => tokens0 [.crcInit] operands
  | .op .crcLoad => tokensHalf (fun v => [.crcLoad (hi8 v) (lo8 v)]) operands
  | .op .crcUpdb => tokensByte (fun d => [.crcUpdb d]) operands
  | .op .crcUpdn => tokensByteByte (fun d k => [.crcUpdn d k]) operands
  | .op .crcRead => tokens0 [.crcRead] operands
  | .op .frmBuild => tokensBuild operands
  | .op .frmCheck => tokensCheck operands
  | .op .frmRead => tokens0 [.frmRead] operands
  | .op .frmInfo => tokens0 [.frmInfo] operands
  | .crcUpd =>
    match tokensByte (fun d => [.crcUpdb d]) operands with
    | some is => some is
    | none => tokensByteByte (fun d k => [.crcUpdn d k]) operands
  | .crcBit => tokensBit (fun b => [.crcUpdn (if b then 0x80#8 else 0x00#8) 0x01#8]) operands
  | .crcBytes => tokensString (fun s => s.map .crcUpdb) operands

/-! ### From characters to tokens -/

/-- The value of a hexadecimal digit. -/
def hexDigit (c : Char) : Option Nat :=
  if 48 ≤ c.toNat ∧ c.toNat ≤ 57 then some (c.toNat - 48)
  else if 65 ≤ c.toNat ∧ c.toNat ≤ 70 then some (c.toNat - 55)
  else if 97 ≤ c.toNat ∧ c.toNat ≤ 102 then some (c.toNat - 87)
  else none

/-- A byte from two hexadecimal digits, the high one first. -/
def hexByte (a b : Char) : Option Byte := do
  let h ← hexDigit a
  let l ← hexDigit b
  some (BitVec.ofNat 8 (16 * h + l))

/-- A character that may follow a byte inside a byte string. -/
def endsByte (c : Char) : Bool := c == ' ' || c == closeBrace

/-- The bytes of a byte string, from after the opening brace to the closing one, which must be the last character (R57). -/
def stringBytes (cs : List Char) : Option (List Byte) :=
  match cs with
  | [] => none
  | c :: rest =>
    if c = closeBrace then (if rest.isEmpty then some [] else none)
    else if c = ' ' then stringBytes rest
    else
      match rest with
      | d :: e :: rest' =>
        if endsByte e then do
          let b ← hexByte c d
          let bs ← stringBytes (e :: rest')
          some (b :: bs)
        else none
      | _ => none

/-- One operand (R57, R58). -/
def parseOperand (cs : List Char) : Option AsmOperand :=
  match cs with
  | ['0'] => some (.bit false)
  | ['1'] => some (.bit true)
  | ['0', 'x', a, b] => (hexByte a b).map .byte
  | ['0', 'x', a, b, c, d] => do
    let h ← hexByte a b
    let l ← hexByte c d
    some (.half (be16 h l))
  | c :: rest => if c = openBrace then (stringBytes rest).map .bytes else none
  | [] => none

/-- The spellings of the names (R50, R58). -/
def asmNames : List (List Char × AsmName) :=
  [("CRC.INIT".toList, .op .crcInit), ("CRC.LOAD".toList, .op .crcLoad), ("CRC.UPDB".toList, .op .crcUpdb),
   ("CRC.UPDN".toList, .op .crcUpdn), ("CRC.READ".toList, .op .crcRead), ("FRM.BUILD".toList, .op .frmBuild),
   ("FRM.CHECK".toList, .op .frmCheck), ("FRM.READ".toList, .op .frmRead), ("FRM.INFO".toList, .op .frmInfo),
   ("CRC.UPD".toList, .crcUpd), ("CRC.BIT".toList, .crcBit), ("CRC.BYTES".toList, .crcBytes)]

/-- The name that a word spells. -/
def parseName (cs : List Char) : Option AsmName := (asmNames.find? (fun r => r.1 == cs)).map (fun r => r.2)

/-- The text without the spaces at either end. -/
def trim (cs : List Char) : List Char :=
  ((cs.dropWhile (fun c => c == ' ')).reverse.dropWhile (fun c => c == ' ')).reverse

/-- The text cut at every occurrence of a character. -/
def splitAt (sep : Char) (cs : List Char) : List (List Char) :=
  match cs with
  | [] => [[]]
  | c :: rest =>
    if c = sep then [] :: splitAt sep rest
    else
      match splitAt sep rest with
      | [] => [[c]]
      | first :: others => (c :: first) :: others

/-- The operands of a line: comma-separated; none when nothing is written (R57). -/
def parseOperands (cs : List Char) : Option (List AsmOperand) :=
  if (trim cs).isEmpty then some [] else (splitAt ',' cs).mapM (fun o => parseOperand (trim o))

/-- The commands of one line: a comment starts at a semicolon, an empty line is no command (R57). -/
def assembleLine (line : List Char) : Option (List Instr) :=
  let code := trim (line.takeWhile (fun c => c != ';'))
  if code.isEmpty then some []
  else do
    let name ← parseName (code.takeWhile (fun c => c != ' '))
    let operands ← parseOperands (code.dropWhile (fun c => c != ' '))
    assembleTokens name operands

/-- The commands of a text given as its lines, in order. -/
def assembleLines (lines : List (List Char)) : Option (List Instr) :=
  match lines with
  | [] => some []
  | l :: rest => do
    let first ← assembleLine l
    let others ← assembleLines rest
    some (first ++ others)

/-! ### Writing commands and responses -/

/-- The capital hexadecimal digit of a value below 16. -/
def hexChar (n : Nat) : Char := if n < 10 then Char.ofNat (48 + n) else Char.ofNat (55 + n)

/-- The two digits of a byte. -/
def showByte (b : Byte) : List Char := [hexChar (b.toNat / 16), hexChar (b.toNat % 16)]

/-- Bytes with a space between them. -/
def showBytesInside (s : List Byte) : List Char :=
  match s with
  | [] => []
  | [b] => showByte b
  | b :: rest => showByte b ++ ' ' :: showBytesInside rest

/-- A byte string, as commands' operands and responses are written (R57). -/
def showBytes (s : List Byte) : List Char := openBrace :: (showBytesInside s ++ [closeBrace])

/-- A byte operand (R57). -/
def showOperand (b : Byte) : List Char := '0' :: 'x' :: showByte b

/-- A command in the notation of R57. -/
def showInstr (i : Instr) : List Char :=
  match i with
  | .crcInit => "CRC.INIT".toList
  | .crcLoad hi lo => "CRC.LOAD 0x".toList ++ showByte hi ++ showByte lo
  | .crcUpdb data => "CRC.UPDB ".toList ++ showOperand data
  | .crcUpdn data bits => "CRC.UPDN ".toList ++ showOperand data ++ ", ".toList ++ showOperand bits
  | .crcRead => "CRC.READ".toList
  | .frmBuild blob => "FRM.BUILD ".toList ++ showBytes blob
  | .frmCheck alen crclen raw =>
    "FRM.CHECK ".toList ++ showOperand alen ++ ", ".toList ++ showOperand crclen ++ ", ".toList ++ showBytes raw
  | .frmRead => "FRM.READ".toList
  | .frmInfo => "FRM.INFO".toList

end Machine
end Sys2Proof
end

