-- ==== Sys2Proof/Safety.lean ====
section
/-! DEFINITION. What counts as a safe state and a safe outcome, and the terms in which the statements speak: the invariant of
10_state.md R21, the frame and the state that the rules give a command, written without the machine's own steps. -/

namespace Sys2Proof
namespace Machine

/-! ### The invariant R21 -/

/-- What R21 says of a state that holds a packet. -/
abbrev PacketHeld (p : Params) (s : State) : Prop :=
  s.fstat = 0x00#8 ∧
  (p.alenMin ≤ s.alen.toNat ∧ s.alen.toNat ≤ p.alenMax) ∧
  s.plen.toNat ≤ p.plenMax ∧
  (s.crclen = 0x01#8 ∨ s.crclen = 0x02#8) ∧
  s.flen.toNat = s.alen.toNat + s.plen.toNat + 3 ∧
  fbGet s.fb 0 = (if 0x80 ≤ (fbGet s.fb 1).toNat then 0xAA#8 else 0x55#8) ∧
  fbGet s.fb (s.flen.toNat - 2) = hi8 s.pcrc ∧
  fbGet s.fb (s.flen.toNat - 1) = lo8 s.pcrc ∧
  s.pcrc = frameCrc (packetAddress s) (packetPayload s) ∧
  (∀ i, i < p.fbSize → s.flen.toNat ≤ i → fbGet s.fb i = 0x00#8)

/-- What R21 says of a state that holds no packet. `FSTAT` is the code of a framer failure, or `0x00` directly after reset. -/
abbrev NoPacket (p : Params) (s : State) : Prop :=
  s.alen = 0x00#8 ∧ s.plen = 0x00#8 ∧ s.crclen = 0x00#8 ∧ s.chan = 0x00#8 ∧ s.pcrc = 0x0000#16 ∧
  (∀ i, i < p.fbSize → fbGet s.fb i = 0x00#8) ∧
  (s.fstat = 0x00#8 ∨ s.fstat = 0x01#8 ∨ s.fstat = 0x02#8 ∨ s.fstat = 0x03#8)

/-- The invariant of R21, with the canonical form of the frame buffer and its bounds (20_memory.md R30). -/
abbrev BlockInv (p : Params) (s : State) : Prop :=
  Memory.wf p s.fb = true ∧
  (s.flen ≠ 0x0000#16 → PacketHeld p s) ∧
  (s.flen = 0x0000#16 → NoPacket p s)

/-- A safe outcome: the machine goes on. -/
def Safe (o : Host.Outcome State Fault Refusal) : Prop := ∃ t, o = .next t

/-- An outcome with its next state changed by `f`; a stop stays as it is. -/
def mapNext (f : State → State) (o : Host.Outcome State Fault Refusal) : Host.Outcome State Fault Refusal :=
  match o with
  | .next s => .next (f s)
  | .fault r => .fault r
  | .refused r => .refused r

/-! ### What the rules give a command, without the machine's steps -/

/-- The frame of R32 and R84 to R90: preamble by the top bit of the first address byte, address, payload, CRC high byte first.
Used with a non-empty address only. -/
def frameOf (address payload : List Byte) : List Byte :=
  (if 0x80 ≤ (address.headD 0x00#8).toNat then 0xAA#8 else 0x55#8) ::
    (address ++ (payload ++ [hi8 (frameCrc address payload), lo8 (frameCrc address payload)]))

/-- The frame buffer that holds the bytes `f` from offset 0 on and `0x00` behind them. -/
def memoryOf (f : List Byte) : Memory := fbSetBytes [] 0 f

/-- The state after a successful `FRM.BUILD` or `FRM.CHECK` (R91, R107). -/
def withPacket (address payload : List Byte) (crclen chan : Byte) (s : State) : State :=
  { s with
    alen := BitVec.ofNat 8 address.length
    plen := BitVec.ofNat 8 payload.length
    crclen := crclen
    chan := chan
    pcrc := frameCrc address payload
    flen := BitVec.ofNat 16 (address.length + payload.length + 3)
    fstat := 0x00#8
    fb := memoryOf (frameOf address payload)
    responses := s.responses ++ [0x00#8 :: frameOf address payload] }

/-- The source's packet fields (10_state.md R23) and `bit_length` (R22) of a state that holds the frame of an address and a payload. -/
def HoldsFields (address payload : List Byte) (crclen : Byte) (t : State) : Prop :=
  packetAddress t = address ∧ packetPayload t = payload ∧
  packetCrcField t = (if crclen = 0x01#8 then [hi8 t.pcrc] else [hi8 t.pcrc, lo8 t.pcrc]) ∧
  packetBytes t = frameOf address payload ∧ bitLength t = 8 * (frameOf address payload).length

/-- The state after a framer command that fails with a status code (60_exceptions.md R120): no packet, the code in `FSTAT` and as the
one response byte, `CRC` unchanged. -/
def failedWith (code : Byte) (s : State) : State :=
  { s with
    alen := 0x00#8
    plen := 0x00#8
    crclen := 0x00#8
    chan := 0x00#8
    pcrc := 0x0000#16
    flen := 0x0000#16
    fstat := code
    fb := []
    responses := s.responses ++ [[code]] }

/-- A state whose next host event is the command string `opcode :: operands`, with the events `rest` behind it. -/
def Delivers (s : State) (opcode : Byte) (operands : List Byte) (rest : List HostEvent) : Prop :=
  s.pending = .command opcode operands :: rest

/-- An illegal command (60_exceptions.md R121): the delivered string is taken, the response is `[0x04]`, nothing else changes. -/
def AnsweredIllegal (opcode : Byte) (operands : List Byte) : Prop :=
  ∀ (s : State) (rest : List HostEvent), Delivers s opcode operands rest →
    step s = .next { s with pending := rest, responses := s.responses ++ [[0x04#8]] }

/-- The top `k` bits of a data byte, the other bits cleared (40_crc.md R68, R69). -/
def topBits (d : Byte) (k : Nat) : Byte := d &&& (0xFF#8 <<< (8 - k))

/-- The low `8 - k` bits of a data byte, the other bits cleared (R68). -/
def lowBits (d : Byte) (k : Nat) : Byte := d &&& (0xFF#8 >>> k)

/-- The one-bit update `u(c, b)` of R69. -/
def oneBit (c : Half) (b : Bool) : Half := crcUpdate c (if b then 0x80#8 else 0x00#8) 0x01#8

/-- The bytes with one bit of the byte at `offset` flipped. -/
def flipBit (f : List Byte) (offset bit : Nat) : List Byte :=
  f.modify offset (fun b => b ^^^ (0x01#8 <<< bit))

/-- The status codes a command can answer, of the commands with a well-formed length (60_exceptions.md R123). -/
def errorCodesOf (i : Instr) : List Byte :=
  match i with
  | .crcInit => []
  | .crcLoad _ _ => []
  | .crcUpdb _ => []
  | .crcUpdn _ _ => []
  | .crcRead => []
  | .frmBuild _ => [0x01#8, 0x02#8]
  | .frmCheck _ _ _ => [0x01#8, 0x02#8, 0x03#8]
  | .frmRead => []
  | .frmInfo => []

/-- The response of a command that succeeds, read from the state after it (30_encoding.md R56). -/
def successResponse (i : Instr) (t : State) : List Byte :=
  match i with
  | .crcInit => [0x00#8, hi8 t.crc, lo8 t.crc]
  | .crcLoad _ _ => [0x00#8, hi8 t.crc, lo8 t.crc]
  | .crcUpdb _ => [0x00#8, hi8 t.crc, lo8 t.crc]
  | .crcUpdn _ _ => [0x00#8, hi8 t.crc, lo8 t.crc]
  | .crcRead => [0x00#8, hi8 t.crc, lo8 t.crc]
  | .frmBuild _ => 0x00#8 :: (List.range t.flen.toNat).map (fbGet t.fb)
  | .frmCheck _ _ _ => 0x00#8 :: (List.range t.flen.toNat).map (fbGet t.fb)
  | .frmRead => 0x00#8 :: (List.range t.flen.toNat).map (fbGet t.fb)
  | .frmInfo => [0x00#8, t.fstat, t.alen, t.plen, t.crclen, t.chan, hi8 t.pcrc, lo8 t.pcrc, hi8 t.flen, lo8 t.flen]

/-- The host's events that are commands. -/
def isCommand (e : HostEvent) : Bool :=
  match e with
  | .command _ _ => true
  | .reset => false

/-- The command sequence of 40_crc.md R77 for a byte sequence: `CRC.INIT`, `CRC.UPDB` for every byte, `CRC.UPDN 0x00, 0x01`,
`CRC.READ`. -/
def checksumCommands (bytes : List Byte) : List HostEvent :=
  .command 0x01#8 [] ::
    (bytes.map (fun b => HostEvent.command 0x03#8 [b]) ++ [.command 0x04#8 [0x00#8, 0x01#8], .command 0x05#8 []])

end Machine
end Sys2Proof
end

