-- ==== Sys2Proof/Certificates/Slice0/Obligations.lean ====
section
/-! DEFINITION. The statements about ESBF for the provers. Each docstring names the rule of spec/ it formalises. A result statement
gives the whole next state as one equation, so it is the frame as well: what the equation does not name is unchanged. -/

open Sys2Proof Sys2Proof.Machine

/-! ### The function `crc_update` (40_crc.md section 1) -/

/-- R66: `step(c) = ((c << 1) mod 2^16) ^ (0x1021 if c[15] = 1 else 0)`, said in numbers, and
`crc_update(crc, data, bits) = step^bits(crc ^ (data << 8))`, with `step^k` the `k`-fold application. -/
def Obligations.CrcUpdateIsIteratedStep : Prop :=
  (∀ c : Half, (crcStep c).toNat = (2 * c.toNat % 65536) ^^^ (if 32768 ≤ c.toNat then 0x1021 else 0)) ∧
  (∀ (crc : Half) (data bits : Byte), crcUpdate crc data bits = crcStep^[bits.toNat] (crc ^^^ (data.setWidth 16 <<< 8)))

/-- R67: every count is legal and runs exactly `bits` iterations; `bits = 0` shifts nothing; `bits = 8 + k` feeds `k` further zero
bits. -/
def Obligations.CrcUpdateBitCounts : Prop :=
  (∀ (crc : Half) (data bits : Byte), crcUpdate crc data bits = crcSteps bits.toNat (crc ^^^ (data.setWidth 16 <<< 8))) ∧
  (∀ (crc : Half) (data : Byte), crcUpdate crc data 0x00#8 = crc ^^^ (data.setWidth 16 <<< 8)) ∧
  (∀ (crc : Half) (data : Byte) (k : Nat), 8 + k ≤ 255 →
    crcUpdate crc data (BitVec.ofNat 8 (8 + k)) = crcUpdate (crcUpdate crc data 0x08#8) 0x00#8 (BitVec.ofNat 8 k) ∧
    crcUpdate crc data (BitVec.ofNat 8 (8 + k)) = crcSteps k (crcUpdate crc data 0x08#8))

/-- R68: with `bits = k < 8` the message bits are the top `k` bits of `data`, bit 7 first; the low `8 - k` bits stay in the result,
shifted left by `k`, and act as message bits of a later call; clearing them first feeds exactly `k` bits, as `& 0x80` does for one; and
R68's two examples. -/
def Obligations.CrcSubByteUpdate : Prop :=
  (∀ (crc : Half) (data : Byte) (k : Nat), k < 8 →
    crcUpdate crc data (BitVec.ofNat 8 k) =
      crcUpdate crc (topBits data k) (BitVec.ofNat 8 k) ^^^ (((lowBits data k).setWidth 16 <<< 8) <<< k) ∧
    crcUpdate (crcUpdate crc data (BitVec.ofNat 8 k)) 0x00#8 (BitVec.ofNat 8 (8 - k)) = crcUpdate crc data 0x08#8 ∧
    crcUpdate crc (topBits data k) (BitVec.ofNat 8 k) =
      (List.range k).foldl (fun c j => oneBit c (data.getLsbD (7 - j))) crc) ∧
  (∀ data : Byte, topBits data 1 = data &&& 0x80#8) ∧
  crcUpdate 0x1234#16 0x80#8 0x01#8 = 0x3449#16 ∧
  crcUpdate 0x1234#16 0xFF#8 0x01#8 = 0xCA49#16

/-- R69: a byte-granular update is eight one-bit updates from bit 7 down to bit 0; it splits at any `k`; and the one-bit form
`u(c, b) = step(c ^ (b << 15))`. -/
def Obligations.CrcByteUpdateComposition : Prop :=
  (∀ (crc : Half) (d : Byte),
    crcUpdate crc d 0x08#8 =
      oneBit (oneBit (oneBit (oneBit (oneBit (oneBit (oneBit (oneBit crc (d.getLsbD 7)) (d.getLsbD 6)) (d.getLsbD 5))
        (d.getLsbD 4)) (d.getLsbD 3)) (d.getLsbD 2)) (d.getLsbD 1)) (d.getLsbD 0)) ∧
  (∀ (crc : Half) (d : Byte) (k : Nat), k ≤ 8 →
    crcUpdate crc d 0x08#8 =
      crcUpdate (crcUpdate crc (topBits d k) (BitVec.ofNat 8 k)) (d <<< k) (BitVec.ofNat 8 (8 - k))) ∧
  (∀ (c : Half) (b : Bool), oneBit c b = crcStep (c ^^^ (if b then 0x8000#16 else 0x0000#16)))

/-- The linearity sentence of R71. -/
def Obligations.CrcUpdateLinear : Prop :=
  (∀ (a b : Half) (d e bits : Byte), crcUpdate (a ^^^ b) (d ^^^ e) bits = crcUpdate a d bits ^^^ crcUpdate b e bits) ∧
  (∀ bits : Byte, crcUpdate 0x0000#16 0x00#8 bits = 0x0000#16)

/-- R70: the checksum of a byte sequence is the chain of byte-granular updates, that of the empty sequence is the start value, and the
nine ASCII digits give `0x29B1`. -/
def Obligations.CrcChainOverBytes : Prop :=
  (∀ (start : Half) (bytes : List Byte), crcBytesFrom start bytes = bytes.foldl (fun c b => crcUpdate c b 0x08#8) start) ∧
  (∀ start : Half, crcBytesFrom start [] = start) ∧
  crcBytesFrom 0xFFFF#16 [0x31#8, 0x32#8, 0x33#8, 0x34#8, 0x35#8, 0x36#8, 0x37#8, 0x38#8, 0x39#8] = 0x29B1#16

/-- What a zero data byte does: it leaves `CRC` exactly at the two fixed points of eight iterations. R74's remark that only `0x0000` is
left is not what R65 gives (log 11). -/
def Obligations.ZeroByteUpdateFixedPoints : Prop :=
  ∀ c : Half, crcUpdate c 0x00#8 0x08#8 = c ↔ (c = 0x0000#16 ∨ c = 0xF01F#16)

/-! ### The CRC commands (40_crc.md section 2) -/

/-- R72, `CRC.INIT`: the register, the response, its encoding, its illegal lengths. -/
def Obligations.CrcInitCommand : Prop :=
  (∀ s : State, exec .crcInit s = .next { s with crc := 0xFFFF#16, responses := s.responses ++ [[0x00#8, 0xFF#8, 0xFF#8]] }) ∧
  (∀ (s : State) (rest : List HostEvent), Delivers s 0x01#8 [] rest →
    step s = .next { s with crc := 0xFFFF#16, pending := rest, responses := s.responses ++ [[0x00#8, 0xFF#8, 0xFF#8]] }) ∧
  (∀ operands : List Byte, operands ≠ [] → AnsweredIllegal 0x01#8 operands)

/-- R73, `CRC.LOAD hi, lo`: the register is `hi * 256 + lo`, the response gives the two bytes back. -/
def Obligations.CrcLoadCommand : Prop :=
  (∀ (hi lo : Byte) (s : State),
    exec (.crcLoad hi lo) s =
      .next { s with crc := BitVec.ofNat 16 (hi.toNat * 256 + lo.toNat), responses := s.responses ++ [[0x00#8, hi, lo]] }) ∧
  (∀ (hi lo : Byte) (s : State) (rest : List HostEvent), Delivers s 0x02#8 [hi, lo] rest →
    step s = .next { s with crc := BitVec.ofNat 16 (hi.toNat * 256 + lo.toNat), pending := rest,
                            responses := s.responses ++ [[0x00#8, hi, lo]] }) ∧
  (∀ operands : List Byte, operands.length ≠ 2 → AnsweredIllegal 0x02#8 operands)

/-- `CRC.UPDB data` as R74's pseudocode has it, the same effect as `CRC.UPDN data, 0x08`, and its illegal lengths. (R74's corner case
remark is the statement `ZeroByteUpdateFixedPoints`.) -/
def Obligations.CrcUpdbCommand : Prop :=
  (∀ (data : Byte) (s : State),
    exec (.crcUpdb data) s =
      .next { s with crc := crcUpdate s.crc data 0x08#8,
                     responses := s.responses ++ [[0x00#8, hi8 (crcUpdate s.crc data 0x08#8), lo8 (crcUpdate s.crc data 0x08#8)]] }) ∧
  (∀ (data : Byte) (s : State) (rest : List HostEvent), Delivers s 0x03#8 [data] rest →
    step s = exec (.crcUpdb data) { s with pending := rest }) ∧
  (∀ (data : Byte) (s : State), exec (.crcUpdb data) s = exec (.crcUpdn data 0x08#8) s) ∧
  (∀ operands : List Byte, operands.length ≠ 1 → AnsweredIllegal 0x03#8 operands)

/-- R75, `CRC.UPDN data, bits`: the register and the response, for every `bits`; its illegal lengths; its corner cases (`bits = 0`, low
bits left in `CRC` for `bits < 8`, extra zero bits for `bits > 8`, 255 iterations); its two examples. -/
def Obligations.CrcUpdnCommand : Prop :=
  (∀ (data bits : Byte) (s : State),
    exec (.crcUpdn data bits) s =
      .next { s with crc := crcUpdate s.crc data bits,
                     responses := s.responses ++ [[0x00#8, hi8 (crcUpdate s.crc data bits), lo8 (crcUpdate s.crc data bits)]] }) ∧
  (∀ (data bits : Byte) (s : State) (rest : List HostEvent), Delivers s 0x04#8 [data, bits] rest →
    step s = exec (.crcUpdn data bits) { s with pending := rest }) ∧
  (∀ operands : List Byte, operands.length ≠ 2 → AnsweredIllegal 0x04#8 operands) ∧
  (∀ (crc : Half) (data : Byte), crcUpdate crc data 0x00#8 = crc ^^^ (data.setWidth 16 <<< 8)) ∧
  (∀ (crc : Half) (data bits : Byte), bits.toNat < 8 →
    crcUpdate crc data bits =
      crcUpdate crc (topBits data bits.toNat) bits ^^^ (((lowBits data bits.toNat).setWidth 16 <<< 8) <<< bits.toNat)) ∧
  (∀ (crc : Half) (data bits : Byte), 8 < bits.toNat →
    crcUpdate crc data bits = crcUpdate (crcUpdate crc data 0x08#8) 0x00#8 (bits - 0x08#8)) ∧
  (∀ (crc : Half) (data : Byte), crcUpdate crc data 0xFF#8 = crcStep^[255] (crc ^^^ (data.setWidth 16 <<< 8))) ∧
  crcUpdate 0xFFFF#16 0x80#8 0x01#8 = 0xFFFE#16 ∧
  crcUpdate 0xFFFF#16 0x00#8 0x01#8 = 0xEFDF#16

/-- R76, `CRC.READ`: the response, no register changed, its illegal lengths, and the example after reset. -/
def Obligations.CrcReadCommand : Prop :=
  (∀ s : State, exec .crcRead s = .next { s with responses := s.responses ++ [[0x00#8, hi8 s.crc, lo8 s.crc]] }) ∧
  (∀ (s : State) (rest : List HostEvent), Delivers s 0x05#8 [] rest →
    step s = .next { s with pending := rest, responses := s.responses ++ [[0x00#8, hi8 s.crc, lo8 s.crc]] }) ∧
  (∀ operands : List Byte, operands ≠ [] → AnsweredIllegal 0x05#8 operands) ∧
  exec .crcRead State.reset = .next { State.reset with responses := [[0x00#8, 0xFF#8, 0xFF#8]] }

/-! ### `FRM.BUILD` (41_framer_build.md) -/

/-- R81: what invalidate does, and that every `FRM.BUILD` and `FRM.CHECK` begins with it. -/
def Obligations.InvalidateBeginsFramerCommands : Prop :=
  (∀ s : State, (invalidate s).flen = 0x0000#16 ∧ (invalidate s).alen = 0x00#8 ∧ (invalidate s).plen = 0x00#8 ∧
    (invalidate s).crclen = 0x00#8 ∧ (invalidate s).chan = 0x00#8 ∧ (invalidate s).pcrc = 0x0000#16 ∧
    (∀ i, i < 40 → fbGet (invalidate s).fb i = 0x00#8) ∧
    (invalidate s).fstat = s.fstat ∧ (invalidate s).crc = s.crc ∧ (invalidate s).pending = s.pending ∧
    (invalidate s).responses = s.responses) ∧
  (∀ (blob : List Byte) (s : State), exec (.frmBuild blob) s = exec (.frmBuild blob) (invalidate s)) ∧
  (∀ (alen crclen : Byte) (raw : List Byte) (s : State),
    exec (.frmCheck alen crclen raw) s = exec (.frmCheck alen crclen raw) (invalidate s))

/-- R82: a blob without its whole fixed part, or shorter than its declared lengths, is `MalformedRequest`, also when a length is
unsupported as well; no other blob is. -/
def Obligations.BuildMalformedRequest : Prop :=
  (∀ (blob : List Byte) (s : State), blob.length < 6 → exec (.frmBuild blob) s = .next (failedWith 0x01#8 s)) ∧
  (∀ (chan alen plen q n crclen : Byte) (rest : List Byte) (s : State), rest.length < alen.toNat + plen.toNat →
    exec (.frmBuild (chan :: alen :: plen :: q :: n :: crclen :: rest)) s = .next (failedWith 0x01#8 s)) ∧
  (∀ (chan alen plen q n crclen : Byte) (rest : List Byte) (s : State), alen.toNat + plen.toNat ≤ rest.length →
    ∃ t, exec (.frmBuild (chan :: alen :: plen :: q :: n :: crclen :: rest)) s = .next t ∧ t.fstat ≠ 0x01#8)

/-- R83: a blob that is long enough and has an unsupported length is `UnsupportedLength`; with supported lengths it is accepted. -/
def Obligations.BuildUnsupportedLength : Prop :=
  (∀ (chan alen plen q n crclen : Byte) (rest : List Byte) (s : State), alen.toNat + plen.toNat ≤ rest.length →
    (alen.toNat < 1 ∨ 5 < alen.toNat ∨ 32 < plen.toNat ∨ (crclen.toNat ≠ 1 ∧ crclen.toNat ≠ 2)) →
    exec (.frmBuild (chan :: alen :: plen :: q :: n :: crclen :: rest)) s = .next (failedWith 0x02#8 s)) ∧
  (∀ (chan alen plen q n crclen : Byte) (rest : List Byte) (s : State), alen.toNat + plen.toNat ≤ rest.length →
    1 ≤ alen.toNat → alen.toNat ≤ 5 → plen.toNat ≤ 32 → (crclen.toNat = 1 ∨ crclen.toNat = 2) →
    ∃ t, exec (.frmBuild (chan :: alen :: plen :: q :: n :: crclen :: rest)) s = .next t ∧ t.fstat = 0x00#8)

/-- R84 to R90 and R92: a blob with supported lengths, any channel, any reserved bytes and any excess bytes is assembled; the next
state holds the frame `[preamble] [address] [payload] [crc hi] [crc lo]` with the checksum of address, payload and a trailing zero
bit, and the response is that frame. The frame buffer reads as the frame followed by `0x00`. -/
def Obligations.BuildAssemblesFrame : Prop :=
  ∀ (chan q n crclen : Byte) (address payload extra : List Byte) (s : State),
    1 ≤ address.length → address.length ≤ 5 → payload.length ≤ 32 → (crclen = 0x01#8 ∨ crclen = 0x02#8) →
    exec (.frmBuild (chan :: BitVec.ofNat 8 address.length :: BitVec.ofNat 8 payload.length :: q :: n :: crclen ::
        (address ++ (payload ++ extra)))) s = .next (withPacket address payload crclen chan s) ∧
    (frameOf address payload).length = 1 + address.length + payload.length + 2 ∧
    4 ≤ (frameOf address payload).length ∧ (frameOf address payload).length ≤ Params.esbf.fbSize ∧
    (∀ i, fbGet (withPacket address payload crclen chan s).fb i = (frameOf address payload).getD i 0x00#8) ∧
    frameCrc address payload = crcUpdate ((address ++ payload).foldl (fun c b => crcUpdate c b 0x08#8) 0xFFFF#16) 0x00#8 0x01#8

/-- R94: two blobs that differ only in `crclen`, 1 against 2, give the same frame buffer, length, checksum and response, two CRC bytes
each, and differ in `CRCLEN` alone; any other `crclen` is refused. -/
def Obligations.CrclenDoesNotChangeFrame : Prop :=
  ∀ (chan alen plen q n : Byte) (rest : List Byte) (s : State),
    (∀ t : State, exec (.frmBuild (chan :: alen :: plen :: q :: n :: 0x01#8 :: rest)) s = .next t → t.flen ≠ 0x0000#16 →
      t.crclen = 0x01#8 ∧ t.flen.toNat = 1 + alen.toNat + plen.toNat + 2 ∧
      exec (.frmBuild (chan :: alen :: plen :: q :: n :: 0x02#8 :: rest)) s = .next { t with crclen := 0x02#8 }) ∧
    (∀ crclen : Byte, crclen ≠ 0x01#8 → crclen ≠ 0x02#8 → alen.toNat + plen.toNat ≤ rest.length →
      exec (.frmBuild (chan :: alen :: plen :: q :: n :: crclen :: rest)) s = .next (failedWith 0x02#8 s))

/-- R53 and R54: the reserved bytes of a blob, and bytes beyond the declared blob or beyond the received CRC, change no result. -/
def Obligations.ReservedAndExcessBytesIgnored : Prop :=
  (∀ (chan alen plen crclen q n q' n' : Byte) (rest : List Byte) (s : State),
    exec (.frmBuild (chan :: alen :: plen :: q :: n :: crclen :: rest)) s =
      exec (.frmBuild (chan :: alen :: plen :: q' :: n' :: crclen :: rest)) s) ∧
  (∀ (chan alen plen q n crclen : Byte) (rest extra : List Byte) (s : State), alen.toNat + plen.toNat ≤ rest.length →
    exec (.frmBuild (chan :: alen :: plen :: q :: n :: crclen :: (rest ++ extra))) s =
      exec (.frmBuild (chan :: alen :: plen :: q :: n :: crclen :: rest)) s) ∧
  (∀ (alen crclen : Byte) (raw extra : List Byte) (s : State), 1 + alen.toNat + 13 ≤ raw.length →
    exec (.frmCheck alen crclen (raw ++ extra)) s = exec (.frmCheck alen crclen raw) s)

/-- The independence sentence of R95, and the loss of the earlier packet (R25): the result of a framer command depends on nothing of
the framer's state before it. -/
def Obligations.FramerCommandsForgetEarlierPacket : Prop :=
  ∀ s s' : State, s.crc = s'.crc → s.pending = s'.pending → s.responses = s'.responses →
    (∀ blob : List Byte, exec (.frmBuild blob) s = exec (.frmBuild blob) s') ∧
    (∀ (alen crclen : Byte) (raw : List Byte), exec (.frmCheck alen crclen raw) s = exec (.frmCheck alen crclen raw) s')

/-- R23: the source's packet fields read from the state after a successful build and after a successful check; `bit_length` (R22) is
eight times the frame's length. -/
def Obligations.PacketFieldsOfHeldFrame : Prop :=
  (∀ (chan q n crclen : Byte) (address payload extra : List Byte) (s t : State),
    1 ≤ address.length → address.length ≤ 5 → payload.length ≤ 32 → (crclen = 0x01#8 ∨ crclen = 0x02#8) →
    exec (.frmBuild (chan :: BitVec.ofNat 8 address.length :: BitVec.ofNat 8 payload.length :: q :: n :: crclen ::
        (address ++ (payload ++ extra)))) s = .next t →
    HoldsFields address payload crclen t) ∧
  (∀ (alen crclen pre : Byte) (address payload tail : List Byte) (s t : State),
    address.length = alen.toNat → payload.length = 11 →
    exec (.frmCheck alen crclen (pre :: (address ++ (payload ++ tail)))) s = .next t → t.fstat = 0x00#8 →
    HoldsFields address payload crclen t)

/-! ### `FRM.CHECK` (42_framer_check.md) -/

/-- R101: a received buffer shorter than `1 + alen + 11 + 2` is `MalformedRequest`, also when a length is unsupported as well; no other
buffer is. -/
def Obligations.CheckMalformedRequest : Prop :=
  (∀ (alen crclen : Byte) (raw : List Byte) (s : State), raw.length < 1 + alen.toNat + 11 + 2 →
    exec (.frmCheck alen crclen raw) s = .next (failedWith 0x01#8 s)) ∧
  (∀ (alen crclen : Byte) (raw : List Byte) (s : State), 1 + alen.toNat + 11 + 2 ≤ raw.length →
    ∃ t, exec (.frmCheck alen crclen raw) s = .next t ∧ t.fstat ≠ 0x01#8)

/-- R102: a buffer that is long enough with an unsupported length is `UnsupportedLength`; with supported lengths it is not. -/
def Obligations.CheckUnsupportedLength : Prop :=
  (∀ (alen crclen : Byte) (raw : List Byte) (s : State), 1 + alen.toNat + 11 + 2 ≤ raw.length →
    (alen.toNat < 1 ∨ 5 < alen.toNat ∨ (crclen.toNat ≠ 1 ∧ crclen.toNat ≠ 2)) →
    exec (.frmCheck alen crclen raw) s = .next (failedWith 0x02#8 s)) ∧
  (∀ (alen crclen : Byte) (raw : List Byte) (s : State), 1 + alen.toNat + 11 + 2 ≤ raw.length →
    1 ≤ alen.toNat → alen.toNat ≤ 5 → (crclen.toNat = 1 ∨ crclen.toNat = 2) →
    ∃ t, exec (.frmCheck alen crclen raw) s = .next t ∧ t.fstat ≠ 0x02#8)

/-- R103 to R106: the check passes exactly when both received CRC bytes are those of the checksum recomputed over address and payload,
whatever `crclen` is; otherwise the command is a `CrcMismatch`. `raw[0]` and the bytes after the CRC do not count. -/
def Obligations.CheckReportsCrcMismatch : Prop :=
  ∀ (crclen pre rxHi rxLo : Byte) (address payload extra : List Byte) (s : State),
    1 ≤ address.length → address.length ≤ 5 → payload.length = 11 → (crclen = 0x01#8 ∨ crclen = 0x02#8) →
    (¬ (rxHi = hi8 (frameCrc address payload) ∧ rxLo = lo8 (frameCrc address payload)) →
      exec (.frmCheck (BitVec.ofNat 8 address.length) crclen
        (pre :: (address ++ (payload ++ (rxHi :: rxLo :: extra))))) s = .next (failedWith 0x03#8 s)) ∧
    (rxHi = hi8 (frameCrc address payload) → rxLo = lo8 (frameCrc address payload) →
      ∃ t, exec (.frmCheck (BitVec.ofNat 8 address.length) crclen
        (pre :: (address ++ (payload ++ (rxHi :: rxLo :: extra))))) s = .next t ∧ t.fstat = 0x00#8 ∧ t.flen ≠ 0x0000#16)

/-- R107: a received frame whose CRC bytes match is rebuilt as a packet with `PLEN = 11`, `CHAN = 0` and the computed preamble; the
bytes `FB[1..L)` equal `raw[1..L)`. -/
def Obligations.CheckRebuildsMatchingFrame : Prop :=
  ∀ (crclen pre rxHi rxLo : Byte) (address payload extra : List Byte) (s : State),
    1 ≤ address.length → address.length ≤ 5 → payload.length = 11 → (crclen = 0x01#8 ∨ crclen = 0x02#8) →
    rxHi = hi8 (frameCrc address payload) → rxLo = lo8 (frameCrc address payload) →
    exec (.frmCheck (BitVec.ofNat 8 address.length) crclen
        (pre :: (address ++ (payload ++ (rxHi :: rxLo :: extra))))) s =
      .next (withPacket address payload crclen 0x00#8 s) ∧
    (withPacket address payload crclen 0x00#8 s).plen = 0x0B#8 ∧
    (∀ i, 1 ≤ i → i < address.length + 14 →
      fbGet (withPacket address payload crclen 0x00#8 s).fb i =
        (pre :: (address ++ (payload ++ (rxHi :: rxLo :: extra)))).getD i 0x00#8)

/-- The round trip of R110: whatever `FRM.BUILD` answers for an 11-byte payload, `FRM.CHECK` accepts from any state, with the same
response and the same packet registers and frame buffer, and `CHAN = 0`. -/
def Obligations.BuildThenCheckRoundTrip : Prop :=
  ∀ (chan q n crclen : Byte) (address payload extra f : List Byte) (s t s' : State),
    1 ≤ address.length → address.length ≤ 5 → payload.length = 11 → (crclen = 0x01#8 ∨ crclen = 0x02#8) →
    exec (.frmBuild (chan :: BitVec.ofNat 8 address.length :: 0x0B#8 :: q :: n :: crclen ::
        (address ++ (payload ++ extra)))) s = .next t →
    t.responses = s.responses ++ [0x00#8 :: f] →
    ∃ t' : State, exec (.frmCheck (BitVec.ofNat 8 address.length) crclen f) s' = .next t' ∧
      t'.responses = s'.responses ++ [0x00#8 :: f] ∧
      t'.alen = t.alen ∧ t'.plen = t.plen ∧ t'.crclen = t.crclen ∧ t'.pcrc = t.pcrc ∧ t'.flen = t.flen ∧ t'.fb = t.fb ∧
      t'.chan = 0x00#8

/-- The tamper detection of R110: flipping any one bit of the address, the payload or the CRC bytes of a frame causes `CrcMismatch`;
a flip in the preamble byte is not detected. -/
def Obligations.SingleBitFlipDetected : Prop :=
  ∀ (crclen : Byte) (address payload : List Byte) (s : State) (bit : Nat),
    1 ≤ address.length → address.length ≤ 5 → payload.length = 11 → (crclen = 0x01#8 ∨ crclen = 0x02#8) → bit < 8 →
    (∀ offset, 1 ≤ offset → offset < address.length + 14 →
      exec (.frmCheck (BitVec.ofNat 8 address.length) crclen (flipBit (frameOf address payload) offset bit)) s =
        .next (failedWith 0x03#8 s)) ∧
    exec (.frmCheck (BitVec.ofNat 8 address.length) crclen (flipBit (frameOf address payload) 0 bit)) s =
      .next (withPacket address payload crclen 0x00#8 s)

/-- R109 says that a frame with another payload length "almost always" fails the comparison: here is a correct frame with a 12-byte
payload that `FRM.CHECK` accepts as an 11-byte one. The first sentence of R143 is therefore not a rule of every frame (log 11). -/
def Obligations.CheckCanAcceptTwelveBytePayload : Prop :=
  ∃ address payload : List Byte, address.length = 5 ∧ payload.length = 12 ∧
    ∀ s : State, ∃ t : State,
      exec (.frmCheck 0x05#8 0x02#8 (frameOf address payload)) s = .next t ∧ t.plen = 0x0B#8 ∧ t.fstat = 0x00#8

/-! ### Read-back (42_framer_check.md section 2) -/

/-- R112, `FRM.READ`: from every state whose `FLEN` is inside the frame buffer (every state of the invariant), the response is `00` and
`FB[0..FLEN)`, the one byte `00` when `FLEN = 0`, and no register changes; its illegal lengths; the example after reset. -/
def Obligations.FrmReadCommand : Prop :=
  (∀ s : State, s.flen.toNat ≤ 40 →
    exec .frmRead s =
      .next { s with responses := s.responses ++ [0x00#8 :: (List.range s.flen.toNat).map (fun i => fbGet s.fb i)] }) ∧
  (∀ s : State, s.flen = 0x0000#16 → exec .frmRead s = .next { s with responses := s.responses ++ [[0x00#8]] }) ∧
  (∀ (s : State) (rest : List HostEvent), Delivers s 0x12#8 [] rest → step s = exec .frmRead { s with pending := rest }) ∧
  (∀ operands : List Byte, operands ≠ [] → AnsweredIllegal 0x12#8 operands) ∧
  exec .frmRead State.reset = .next { State.reset with responses := [[0x00#8]] } ∧
  (∀ s : State, ∃ t u : State,
    exec (.frmBuild [0x02#8, 0x05#8, 0x04#8, 0x00#8, 0x00#8, 0x02#8, 0xE7#8, 0xE7#8, 0xE7#8, 0xE7#8, 0xE7#8, 0xDE#8, 0xAD#8,
      0xBE#8, 0xEF#8]) s = .next t ∧ exec .frmRead t = .next u ∧
    u.responses = t.responses ++ [[0x00#8, 0xAA#8, 0xE7#8, 0xE7#8, 0xE7#8, 0xE7#8, 0xE7#8, 0xDE#8, 0xAD#8, 0xBE#8, 0xEF#8,
      0x16#8, 0x5D#8]])

/-- The model's choice (log 5), for states that no run reaches: where `FLEN` is beyond the frame buffer, `FRM.READ` stops, since R8's
`MemRead` "requires `a + n <= FB_SIZE`". -/
def Obligations.FrmReadStopsOutsideFrameBuffer : Prop :=
  ∀ s : State, 40 < s.flen.toNat → exec .frmRead s = .fault (.outsideFrameBuffer s.flen.toNat)

/-- R113, `FRM.INFO`: the ten response bytes, no register changed, its illegal lengths, and its examples. -/
def Obligations.FrmInfoCommand : Prop :=
  (∀ s : State, exec .frmInfo s =
    .next { s with responses := s.responses ++
      [[0x00#8, s.fstat, s.alen, s.plen, s.crclen, s.chan, hi8 s.pcrc, lo8 s.pcrc, hi8 s.flen, lo8 s.flen]] }) ∧
  (∀ (s : State) (rest : List HostEvent), Delivers s 0x13#8 [] rest → step s = exec .frmInfo { s with pending := rest }) ∧
  (∀ operands : List Byte, operands ≠ [] → AnsweredIllegal 0x13#8 operands) ∧
  exec .frmInfo State.reset =
    .next { State.reset with responses := [[0x00#8, 0x00#8, 0x00#8, 0x00#8, 0x00#8, 0x00#8, 0x00#8, 0x00#8, 0x00#8, 0x00#8]] } ∧
  (∀ s : State, ∃ t u : State,
    exec (.frmBuild [0x02#8, 0x05#8, 0x04#8, 0x00#8, 0x00#8, 0x02#8, 0xE7#8, 0xE7#8, 0xE7#8, 0xE7#8, 0xE7#8, 0xDE#8, 0xAD#8,
      0xBE#8, 0xEF#8]) s = .next t ∧ exec .frmInfo t = .next u ∧
    u.responses = t.responses ++ [[0x00#8, 0x00#8, 0x05#8, 0x04#8, 0x02#8, 0x02#8, 0x16#8, 0x5D#8, 0x00#8, 0x0C#8]]) ∧
  (∀ s t : State, t = failedWith 0x03#8 s →
    exec .frmInfo t = .next { t with responses := t.responses ++
      [[0x00#8, 0x03#8, 0x00#8, 0x00#8, 0x00#8, 0x00#8, 0x00#8, 0x00#8, 0x00#8, 0x00#8]] })

/-! ### Separation of the two units -/

/-- R78: the framer commands neither read nor write `CRC`, whether they succeed or fail: with another value in `CRC` the outcome is the
same but for that value, which stays. -/
def Obligations.FramerLeavesCrcRegister : Prop :=
  ∀ (i : Instr) (s : State) (v : Half),
    ((∃ blob, i = .frmBuild blob) ∨ (∃ alen crclen raw, i = .frmCheck alen crclen raw) ∨ i = .frmRead ∨ i = .frmInfo) →
    exec i { s with crc := v } = mapNext (fun t => { t with crc := v }) (exec i s) ∧
    (∀ t : State, exec i s = .next t → t.crc = s.crc)

/-! ### Errors and responses (60_exceptions.md, 30_encoding.md section 5) -/

/-- R120: whenever a framer command answers an error code, the state after it is the one with no packet, the code in `FSTAT` and `CRC`
unchanged. -/
def Obligations.RaisedErrorDeterminesState : Prop :=
  ∀ (i : Instr) (s t : State) (code : Byte),
    ((∃ blob, i = .frmBuild blob) ∨ (∃ alen crclen raw, i = .frmCheck alen crclen raw)) →
    exec i s = .next t → t.responses = s.responses ++ [[code]] → t = failedWith code s

/-- R56, with R123's table of which command can raise which error: a step on a delivered command adds one response to those given. For
an illegal command it is `[04]`; for a command of R50 it is one of the command's error codes alone, or the success response of R56's
table. -/
def Obligations.EveryCommandAnswersOnce : Prop :=
  ∀ (s t : State) (opcode : Byte) (operands : List Byte) (rest : List HostEvent),
    Delivers s opcode operands rest → step s = .next t →
    (∀ reason, decode (opcode :: operands) = .error reason → t.responses = s.responses ++ [[0x04#8]]) ∧
    (∀ i, decode (opcode :: operands) = .ok i →
      ∃ r : List Byte, t.responses = s.responses ++ [r] ∧ r ≠ [] ∧
        ((∃ code ∈ errorCodesOf i, r = [code]) ∨ r = successResponse i t))

/-- Which commands write which registers (R12 to R20, R31): only the opcodes `01` to `04` change `CRC`, only `10` and `11` change the
framer's registers and the frame buffer; an illegal command changes neither. -/
def Obligations.RegistersHaveTheirWriters : Prop :=
  ∀ (s t : State) (opcode : Byte) (operands : List Byte) (rest : List HostEvent),
    Delivers s opcode operands rest → step s = .next t →
    (opcode ≠ 0x01#8 → opcode ≠ 0x02#8 → opcode ≠ 0x03#8 → opcode ≠ 0x04#8 → t.crc = s.crc) ∧
    (opcode ≠ 0x10#8 → opcode ≠ 0x11#8 →
      t.alen = s.alen ∧ t.plen = s.plen ∧ t.crclen = s.crclen ∧ t.chan = s.chan ∧ t.pcrc = s.pcrc ∧ t.flen = s.flen ∧
      t.fstat = s.fstat ∧ t.fb = s.fb) ∧
    (∀ reason, decode (opcode :: operands) = .error reason →
      t = { s with pending := rest, responses := s.responses ++ [[0x04#8]] })

/-- R51: a reserved opcode is illegal whatever its length. -/
def Obligations.ReservedOpcodesAreIllegal : Prop :=
  ∀ (opcode : Byte) (operands : List Byte),
    (opcode.toNat = 0x00 ∨ (0x06 ≤ opcode.toNat ∧ opcode.toNat ≤ 0x0F) ∨ 0x14 ≤ opcode.toNat) → AnsweredIllegal opcode operands

/-- R52: a wrong length is illegal; a `CB` command is never illegal for its length. -/
def Obligations.WrongLengthsAreIllegal : Prop :=
  (∀ (opcode : Byte) (operands : List Byte),
    ((opcode = 0x01#8 ∨ opcode = 0x05#8 ∨ opcode = 0x12#8 ∨ opcode = 0x13#8) ∧ operands.length + 1 ≠ 1) ∨
    (opcode = 0x03#8 ∧ operands.length + 1 ≠ 2) ∨
    ((opcode = 0x02#8 ∨ opcode = 0x04#8) ∧ operands.length + 1 ≠ 3) ∨
    (opcode = 0x11#8 ∧ operands.length + 1 < 3) → AnsweredIllegal opcode operands) ∧
  (∀ (blob : List Byte) (s : State) (rest : List HostEvent), Delivers s 0x10#8 blob rest →
    step s = exec (.frmBuild blob) { s with pending := rest })

/-! ### Decoding, the step, reset -/

/-- R55: a non-empty byte string is a command of R50 with a well-formed length, or reserved, or of a wrong length; it is the first
exactly when it is the encoding of that command, which is then the only one. -/
def Obligations.DecodeAgreesWithEncode : Prop :=
  (∀ (cmd : List Byte) (i : Instr), decode cmd = .ok i ↔ (i.wf = true ∧ encode i = cmd)) ∧
  (∀ (opcode : Byte) (operands : List Byte),
    (∃ i, decode (opcode :: operands) = .ok i) ∨
    (decode (opcode :: operands) = .error (.reservedOpcode opcode) ∧ opcodeRow opcode = none) ∨
    (decode (opcode :: operands) = .error (.wrongLength opcode (operands.length + 1)) ∧
      ∃ row, opcodeRow opcode = some row ∧ row.format.lengthOk (operands.length + 1) = false)) ∧
  decode [] = .error .emptyString

/-- Words written out from R50 and R45, and one of R57's examples, decode to the commands they stand for. -/
def Obligations.SampleWordsDecode : Prop :=
  decode [0x01#8] = .ok .crcInit ∧
  decode [0x02#8, 0x1D#8, 0x0F#8] = .ok (.crcLoad 0x1D#8 0x0F#8) ∧
  decode [0x03#8, 0x31#8] = .ok (.crcUpdb 0x31#8) ∧
  decode [0x04#8, 0x80#8, 0x01#8] = .ok (.crcUpdn 0x80#8 0x01#8) ∧
  decode [0x10#8] = .ok (.frmBuild []) ∧
  decode [0x11#8, 0x05#8, 0x02#8, 0x55#8] = .ok (.frmCheck 0x05#8 0x02#8 [0x55#8]) ∧
  decode [0x13#8] = .ok .frmInfo

/-- A step runs the decoded command: when the next event is a command string that decodes to a well-formed command, the step is `exec` of
it with the event taken. -/
def Obligations.StepRunsDecodedCommand : Prop :=
  ∀ (s : State) (opcode : Byte) (operands : List Byte) (rest : List HostEvent) (i : Instr),
    Delivers s opcode operands rest → decode (opcode :: operands) = .ok i → i.wf = true →
    step s = exec i { s with pending := rest }

/-- The model's choice (log 2): with no event pending, a step changes nothing. -/
def Obligations.StepWaitsWithoutEvent : Prop :=
  ∀ s : State, s.pending = [] → step s = .next s

/-- The reset event of R135 sets every piece of the block's state to its reset value; that the host's side of the port stays is the
model's choice (log 6). -/
def Obligations.ResetEventRestoresResetState : Prop :=
  ∀ (s : State) (rest : List HostEvent), s.pending = .reset :: rest →
    step s = .next { State.reset with pending := rest, responses := s.responses }

/-- R27: the reset values. -/
def Obligations.ResetValues : Prop :=
  State.reset.crc = 0xFFFF#16 ∧ State.reset.alen = 0x00#8 ∧ State.reset.plen = 0x00#8 ∧ State.reset.crclen = 0x00#8 ∧
  State.reset.chan = 0x00#8 ∧ State.reset.pcrc = 0x0000#16 ∧ State.reset.flen = 0x0000#16 ∧ State.reset.fstat = 0x00#8 ∧
  holdsPacket State.reset = false ∧ (∀ i, i < 40 → fbGet State.reset.fb i = 0x00#8)

/-- The parameter constraints of R6 and what follows from them (R5, R18): every accepted frame fits the frame buffer, and `FLEN`'s sixteen
bits hold its length; this hardware's buffer has 40 bytes. -/
def Obligations.FramesFitTheBuffer : Prop :=
  Params.esbf.wf = true ∧ Params.esbf.fbSize = 40 ∧
  (∀ (p : Params) (alen plen : Byte), p.wf = true → alenSupported p alen = true → plenSupported p plen = true →
    4 ≤ frameLength alen.toNat plen.toNat ∧ frameLength alen.toNat plen.toNat ≤ p.fbSize ∧
    frameLength alen.toNat plen.toNat ≤ 513 ∧
    (BitVec.ofNat 16 (frameLength alen.toNat plen.toNat)).toNat = frameLength alen.toNat plen.toNat) ∧
  (∀ (p : Params) (alen : Byte), p.wf = true → alenSupported p alen = true →
    4 ≤ frameLength alen.toNat parsePlen ∧ frameLength alen.toNat parsePlen ≤ p.fbSize)

/-! ### Invariant and liveness -/

/-- The reset state satisfies the invariant of R21. -/
def Obligations.ResetSatisfiesInvariant : Prop := BlockInv Params.esbf State.reset

/-- R21: every step keeps the invariant. -/
def Obligations.StepKeepsInvariant : Prop :=
  ∀ s t : State, BlockInv Params.esbf s → step s = .next t → BlockInv Params.esbf t

/-- The first sentence of R127, with R37: from every state of the invariant a step goes on, no access leaves its space, and a pending
command is taken and answered by one response whose first byte is a status code of R116; an error is that byte alone. -/
def Obligations.EveryCommandResponds : Prop :=
  ∀ s : State, BlockInv Params.esbf s →
    Safe (step s) ∧
    ∀ (opcode : Byte) (operands : List Byte) (rest : List HostEvent), Delivers s opcode operands rest →
      ∃ (t : State) (code : Byte) (tail : List Byte), step s = .next t ∧ t.pending = rest ∧
        t.responses = s.responses ++ [code :: tail] ∧ code.toNat ≤ 4 ∧ (code ≠ 0x00#8 → tail = [])

/-- From every state of the invariant, as many steps as there are pending events end with no event pending, the invariant holding and
one new response for every command: no run stops and none is left unanswered. The pending list may hold reset events: that the commands
behind one are still delivered, and that the responses before it are kept, is the model's choice (log 6); R135 says nothing of either. -/
def Obligations.RunsAnswerEveryCommand : Prop :=
  ∀ s : State, BlockInv Params.esbf s →
    ∃ t : State, Host.Core.run Sys2Proof.core s.pending.length s = .next t ∧ BlockInv Params.esbf t ∧ t.pending = [] ∧
      t.responses.length = s.responses.length + (s.pending.filter isCommand).length

/-- R77: the host reproduces a frame's checksum with the CRC commands: `CRC.INIT`, `CRC.UPDB` for every byte, `CRC.UPDN 0x00, 0x01`,
`CRC.READ`, whose response is the value that a successful `FRM.BUILD` of the same address and payload puts in `PCRC`; the framer's state
is untouched. -/
def Obligations.HostReproducesFrameChecksum : Prop :=
  ∀ (address payload : List Byte) (rest : List HostEvent) (s : State),
    s.pending = checksumCommands (address ++ payload) ++ rest →
    ∃ earlier : List (List Byte),
      Host.Core.run Sys2Proof.core (address.length + payload.length + 3) s =
        .next { s with
          crc := frameCrc address payload
          pending := rest
          responses := s.responses ++ earlier ++
            [[0x00#8, hi8 (frameCrc address payload), lo8 (frameCrc address payload)]] } ∧
      earlier.length = address.length + payload.length + 2 ∧
      ∀ (chan q n crclen : Byte) (u v : State), address.length ≤ 5 → payload.length ≤ 32 →
        exec (.frmBuild (chan :: BitVec.ofNat 8 address.length :: BitVec.ofNat 8 payload.length :: q :: n :: crclen ::
          (address ++ payload))) u = .next v → v.flen ≠ 0x0000#16 → v.pcrc = frameCrc address payload

/-! ### Notation (30_encoding.md section 6) -/

/-- R58: each pseudo-command is its exact expansion (`CRC.BYTES` of one byte or more), and `CRC.UPDB d` and `CRC.UPDN d, 0x08` are two encodings of one operation. -/
def Obligations.PseudoCommandsExpand : Prop :=
  (∀ d : Byte, assembleTokens .crcUpd [.byte d] = some [.crcUpdb d]) ∧
  (∀ d k : Byte, assembleTokens .crcUpd [.byte d, .byte k] = some [.crcUpdn d k]) ∧
  (∀ b : Bool, assembleTokens .crcBit [.bit b] = some [.crcUpdn (BitVec.ofNat 8 b.toNat <<< 7) 0x01#8]) ∧
  (∀ (b : Byte) (bytes : List Byte),
    assembleTokens .crcBytes [.bytes (b :: bytes)] = some (.crcUpdb b :: bytes.map .crcUpdb)) ∧
  (∀ (chan crclen : Byte) (address payload : List Byte), address.length ≤ 255 → payload.length ≤ 255 →
    assembleTokens (.op .frmBuild) [.byte chan, .byte crclen, .bytes address, .bytes payload] =
      some [.frmBuild ([chan, BitVec.ofNat 8 address.length, BitVec.ofNat 8 payload.length, 0x00#8, 0x00#8, crclen] ++
        address ++ payload)]) ∧
  (∀ (d : Byte) (s : State), exec (.crcUpdb d) s = exec (.crcUpdn d 0x08#8) s)

/-- The notation of R57 read back: the line written for a command assembles to that command, for every operand value. -/
def Obligations.AssemblerReadsWrittenCommand : Prop :=
  ∀ i : Instr, assembleLine (showInstr i) = some [i]

/-- The model's choice (log 10) for operands that R58 does not define: `CRC.BYTES` of an empty byte string is no command, and the field
form of `FRM.BUILD` with an address or a payload whose length does not fit its byte of the blob is refused. -/
def Obligations.UndefinedPseudoOperands : Prop :=
  assembleTokens .crcBytes [.bytes []] = some [] ∧
  (∀ (chan crclen : Byte) (address payload : List Byte), (255 < address.length ∨ 255 < payload.length) →
    assembleTokens (.op .frmBuild) [.byte chan, .byte crclen, .bytes address, .bytes payload] = none)
end

