-- ==== Sys2Proof/Laws/Crc.lean ====
section
/-! SUPPORT. The algebra of one CRC iteration and its repetition (40_crc.md R65, R66, R71): linear over XOR, and one to one. -/

namespace Sys2Proof
namespace Machine

/-! ### One iteration -/

@[simp] theorem crcStep_zero : crcStep 0x0000#16 = 0x0000#16 := by decide

/-- One iteration is linear over XOR. -/
theorem crcStep_xor (a b : Half) : crcStep (a ^^^ b) = crcStep a ^^^ crcStep b := by
  unfold crcStep
  rw [BitVec.shiftLeft_xor_distrib, BitVec.getLsbD_xor]
  cases a.getLsbD 15 <;> cases b.getLsbD 15 <;> simp
  · rw [BitVec.xor_assoc]
  · rw [BitVec.xor_assoc, BitVec.xor_assoc, BitVec.xor_comm (b <<< 1)]
  · rw [BitVec.xor_assoc, ← BitVec.xor_assoc crcPoly, BitVec.xor_comm crcPoly, BitVec.xor_assoc (b <<< 1), BitVec.xor_self,
      BitVec.xor_zero]

/-- One iteration takes no other value to zero: the low bit of the polynomial is 1. -/
theorem crcStep_eq_zero {c : Half} (h : crcStep c = 0x0000#16) : c = 0x0000#16 := by
  unfold crcStep at h
  split at h
  · have h0 := congrArg (fun v : Half => v.getLsbD 0) h
    simp [crcPoly] at h0
  · rename_i ht
    apply BitVec.eq_of_getLsbD_eq
    intro i hi
    by_cases h15 : i = 15
    · subst h15; simpa using ht
    · have hs := congrArg (fun v : Half => v.getLsbD (i + 1)) h
      have : i + 1 < 16 := by omega
      rw [BitVec.getLsbD_eq_getElem hi]
      simpa [this] using hs

/-- One iteration is one to one. -/
theorem crcStep_injective {a b : Half} (h : crcStep a = crcStep b) : a = b := by
  have hx : crcStep (a ^^^ b) = 0x0000#16 := by rw [crcStep_xor, h, BitVec.xor_self]
  exact BitVec.xor_eq_zero_iff.mp (crcStep_eq_zero hx)

/-! ### Repeated iterations -/

@[simp] theorem crcSteps_none (c : Half) : crcSteps 0 c = c := rfl

theorem crcSteps_succ (n : Nat) (c : Half) : crcSteps (n + 1) c = crcSteps n (crcStep c) := rfl

/-- Iterations add up. -/
theorem crcSteps_add (m n : Nat) (c : Half) : crcSteps (m + n) c = crcSteps n (crcSteps m c) := by
  induction m generalizing c with
  | zero => simp
  | succ m ih => rw [Nat.succ_add, crcSteps_succ, crcSteps_succ, ih]

@[simp] theorem crcSteps_zero (n : Nat) : crcSteps n 0x0000#16 = 0x0000#16 := by
  induction n with
  | zero => rfl
  | succ n ih => rw [crcSteps_succ, crcStep_zero, ih]

theorem crcSteps_xor (n : Nat) (a b : Half) : crcSteps n (a ^^^ b) = crcSteps n a ^^^ crcSteps n b := by
  induction n generalizing a b with
  | zero => rfl
  | succ n ih => rw [crcSteps_succ, crcSteps_succ, crcSteps_succ, crcStep_xor, ih]

theorem crcSteps_injective (n : Nat) {a b : Half} (h : crcSteps n a = crcSteps n b) : a = b := by
  induction n generalizing a b with
  | zero => exact h
  | succ n ih => exact crcStep_injective (ih h)

/-! ### The update and the checksum of a byte sequence -/

/-- A data byte in the high half, as R65 feeds it. -/
theorem highByte_xor (d e : Byte) :
    ((d ^^^ e).setWidth 16 <<< 8 : Half) = (d.setWidth 16 <<< 8) ^^^ (e.setWidth 16 <<< 8) := by
  rw [BitVec.setWidth_xor, BitVec.shiftLeft_xor_distrib]

/-- Distinct bytes stay distinct in the high half. -/
theorem highByte_injective {d e : Byte} (h : (d.setWidth 16 <<< 8 : Half) = e.setWidth 16 <<< 8) : d = e := by
  apply BitVec.eq_of_getLsbD_eq
  intro i hi
  have hb := congrArg (fun v : Half => v.getLsbD (8 + i)) h
  have h16 : 8 + i < 16 := by omega
  simpa [h16] using hb

/-- From one data byte, distinct start values give distinct results. -/
theorem crcUpdate_injective_crc {a b : Half} {d k : Byte} (h : crcUpdate a d k = crcUpdate b d k) : a = b := by
  have hx := crcSteps_injective _ h
  simpa using hx

/-- From one start value, distinct data bytes give distinct results. -/
theorem crcUpdate_injective_data {a : Half} {d e k : Byte} (h : crcUpdate a d k = crcUpdate a e k) : d = e := by
  have hx := crcSteps_injective _ h
  exact highByte_injective (by simpa using hx)

@[simp] theorem crcBytesFrom_nil (c : Half) : crcBytesFrom c [] = c := rfl

@[simp] theorem crcBytesFrom_cons (c : Half) (b : Byte) (s : List Byte) :
    crcBytesFrom c (b :: s) = crcBytesFrom (crcUpdate c b 0x08#8) s := rfl

theorem crcBytesFrom_append (c : Half) (s t : List Byte) : crcBytesFrom c (s ++ t) = crcBytesFrom (crcBytesFrom c s) t := by
  induction s generalizing c with
  | nil => rfl
  | cons b s ih => exact ih _

/-- Over one byte sequence, distinct start values give distinct checksums. -/
theorem crcBytesFrom_injective {a b : Half} {s : List Byte} (h : crcBytesFrom a s = crcBytesFrom b s) : a = b := by
  induction s generalizing a b with
  | nil => exact h
  | cons d s ih => exact crcUpdate_injective_crc (ih h)

/-- Two byte sequences that differ in one byte have distinct checksums. -/
theorem crcBytesFrom_ne_of_one_byte {c : Half} {l r : List Byte} {d e : Byte} (hde : d ≠ e) :
    crcBytesFrom c (l ++ d :: r) ≠ crcBytesFrom c (l ++ e :: r) := by
  intro h
  rw [crcBytesFrom_append, crcBytesFrom_append] at h
  exact hde (crcUpdate_injective_data (crcBytesFrom_injective h))

end Machine
end Sys2Proof
end

