-- ==== Sys2Proof/Laws/Decode.lean ====
section
/-! SUPPORT. What the decoder can answer, by the row of the opcode map. -/

namespace Sys2Proof

/-- A row found for an opcode is a row of the map, and it is that opcode's. -/
theorem opcodeRow_mem {b : Byte} {row : OpcodeRow} (h : opcodeRow b = some row) : row ∈ opcodeMap ∧ row.opcode = b := by
  unfold opcodeRow at h
  exact ⟨List.mem_of_find?_eq_some h, by simpa using List.find?_some h⟩

/-- No two rows of the map have one opcode, and no two have one operation. -/
theorem opcodeMap_unique :
    ∀ r ∈ opcodeMap, ∀ r' ∈ opcodeMap, (r.opcode = r'.opcode ∨ r.op = r'.op) → r = r' := by decide

/-- Every row of the map is the row found for its opcode. -/
theorem opcodeRow_of_mem : ∀ r ∈ opcodeMap, opcodeRow r.opcode = some r := by decide

theorem noOperands_eq_some_iff {i j : Instr} {args : List Byte} : noOperands i args = some j ↔ i = j ∧ args = [] := by
  cases args <;> simp [noOperands]

theorem oneOperand_eq_some_iff {mk : Byte → Instr} {args : List Byte} {j : Instr} :
    oneOperand mk args = some j ↔ ∃ d, args = [d] ∧ mk d = j := by
  unfold oneOperand
  split <;> simp_all

theorem twoOperands_eq_some_iff {mk : Byte → Byte → Instr} {args : List Byte} {j : Instr} :
    twoOperands mk args = some j ↔ ∃ b1 b2, args = [b1, b2] ∧ mk b1 b2 = j := by
  unfold twoOperands
  split <;> simp_all

theorem twoOperandsAndTail_eq_some_iff {mk : Byte → Byte → List Byte → Instr} {args : List Byte} {j : Instr} :
    twoOperandsAndTail mk args = some j ↔ ∃ b1 b2 tail, args = b1 :: b2 :: tail ∧ mk b1 b2 tail = j := by
  unfold twoOperandsAndTail
  split <;> simp_all

/-- Operand extraction answers a command exactly when the bytes are that command's operands (R45, R49). -/
theorem operandsOf_eq_some_iff {op : Op} {args : List Byte} {i : Instr} :
    operandsOf op args = some i ↔ opOf i = op ∧ args = (encode i).tail := by
  constructor
  · intro h
    cases op <;> simp only [operandsOf] at h
    case crcInit | crcRead | frmRead | frmInfo =>
      obtain ⟨rfl, rfl⟩ := noOperands_eq_some_iff.mp h
      exact ⟨rfl, rfl⟩
    case crcUpdb =>
      obtain ⟨_, rfl, rfl⟩ := oneOperand_eq_some_iff.mp h
      exact ⟨rfl, rfl⟩
    case crcLoad | crcUpdn =>
      obtain ⟨_, _, rfl, rfl⟩ := twoOperands_eq_some_iff.mp h
      exact ⟨rfl, rfl⟩
    case frmBuild =>
      injection h with h
      subst h
      exact ⟨rfl, rfl⟩
    case frmCheck =>
      obtain ⟨_, _, _, rfl, rfl⟩ := twoOperandsAndTail_eq_some_iff.mp h
      exact ⟨rfl, rfl⟩
  · rintro ⟨rfl, rfl⟩
    cases i <;> rfl

/-- Operand extraction fails only when the length is not one the format requires (R46, R52). -/
theorem operandsOf_eq_none {row : OpcodeRow} (hr : row ∈ opcodeMap) {args : List Byte} (h : operandsOf row.op args = none) :
    row.format.lengthOk (args.length + 1) = false := by
  simp only [opcodeMap, List.mem_cons, List.not_mem_nil, or_false] at hr
  rcases hr with rfl | rfl | rfl | rfl | rfl | rfl | rfl | rfl | rfl <;> simp only [operandsOf] at h
  case inr.inr.inr.inr.inr.inl => cases h
  all_goals
    rcases args with _ | ⟨a, _ | ⟨b, _ | ⟨c, r⟩⟩⟩ <;>
      simp_all [noOperands, oneOperand, twoOperands, twoOperandsAndTail, Format.lengthOk]

/-- A reserved opcode is illegal whatever follows (R51). -/
theorem decode_reserved {b : Byte} {args : List Byte} (h : opcodeRow b = none) : decode (b :: args) = .error (.reservedOpcode b) := by
  simp [decode, h]

/-- A command whose operand bytes fit (R45). -/
theorem decode_ok {b : Byte} {args : List Byte} {row : OpcodeRow} {i : Instr} (h : opcodeRow b = some row)
    (ho : operandsOf row.op args = some i) : decode (b :: args) = .ok i := by
  simp [decode, h, ho]

/-- A command whose length does not fit (R52). -/
theorem decode_wrongLength {b : Byte} {args : List Byte} {row : OpcodeRow} (h : opcodeRow b = some row)
    (ho : operandsOf row.op args = none) : decode (b :: args) = .error (.wrongLength b (args.length + 1)) := by
  simp [decode, h, ho]

/-- What a decoded byte string can be: an opcode with a row, and operand bytes that fit it. -/
theorem decode_eq_ok {cmd : List Byte} {i : Instr} (h : decode cmd = .ok i) :
    ∃ b args row, cmd = b :: args ∧ opcodeRow b = some row ∧ operandsOf row.op args = some i := by
  cases cmd with
  | nil => cases h
  | cons b args =>
    cases hr : opcodeRow b with
    | none => rw [decode_reserved hr] at h; cases h
    | some row =>
      cases ho : operandsOf row.op args with
      | none => rw [decode_wrongLength hr ho] at h; cases h
      | some j =>
        rw [decode_ok hr ho] at h
        injection h with h
        exact ⟨b, args, row, rfl, hr, by rw [ho, h]⟩

end Sys2Proof
end

