-- ==== Sys2Proof/Laws/Memory.lean ====
section
/-! SUPPORT. The frame buffer: read after write, the canonical form is kept, equal contents are equal data, and what each checked
access answers. -/

namespace Sys2Proof
namespace Machine

/-! ### The canonical form -/

@[simp] theorem wfFrom_nil (lo size : Nat) : wfFrom lo size [] = true := rfl

theorem wfFrom_cons {lo size k : Nat} {v : Byte} {m : Memory} :
    wfFrom lo size ((k, v) :: m) = true ↔ lo ≤ k ∧ k < size ∧ v ≠ 0x00#8 ∧ wfFrom (k + 1) size m = true := by
  simp [wfFrom, and_assoc]

theorem wfFrom_mono {lo lo' size : Nat} {m : Memory} (h : wfFrom lo size m = true) (hl : lo' ≤ lo) :
    wfFrom lo' size m = true := by
  cases m with
  | nil => rfl
  | cons e m =>
    obtain ⟨k, v⟩ := e
    rw [wfFrom_cons] at h ⊢
    exact ⟨by omega, h.2⟩

@[simp] theorem fbGet_nil (a : Nat) : fbGet [] a = 0x00#8 := rfl

/-- Below the lowest entry everything reads as `0x00`. -/
theorem fbGet_below {lo size a : Nat} {m : Memory} (h : wfFrom lo size m = true) (ha : a < lo) : fbGet m a = 0x00#8 := by
  induction m generalizing lo with
  | nil => rfl
  | cons e m ih =>
    obtain ⟨k, v⟩ := e
    rw [wfFrom_cons] at h
    have hk : k ≠ a := by omega
    simp only [fbGet, hk, if_false]
    exact ih h.2.2.2 (by omega)

/-- Outside the space everything reads as `0x00`. -/
theorem fbGet_above {lo size a : Nat} {m : Memory} (h : wfFrom lo size m = true) (ha : size ≤ a) : fbGet m a = 0x00#8 := by
  induction m generalizing lo with
  | nil => rfl
  | cons e m ih =>
    obtain ⟨k, v⟩ := e
    rw [wfFrom_cons] at h
    have hk : k ≠ a := by omega
    simp only [fbGet, hk, if_false]
    exact ih h.2.2.2

/-- Read after write: the byte written at its offset, every other byte as before. -/
theorem fbGet_fbSet {lo size : Nat} {m : Memory} (h : wfFrom lo size m = true) (a c : Nat) (b : Byte) :
    fbGet (fbSet m a b) c = if c = a then b else fbGet m c := by
  induction m generalizing lo with
  | nil =>
    by_cases hb : b = 0x00#8
    · simp [fbSet, hb]
    · simp [fbSet, hb, fbGet, eq_comm]
  | cons e m ih =>
    obtain ⟨k, v⟩ := e
    rw [wfFrom_cons] at h
    have ih := ih h.2.2.2
    have below := @fbGet_below (k + 1) size a m h.2.2.2
    unfold fbSet
    split
    · rename_i hak
      have hz : fbGet m a = 0x00#8 := below (by omega)
      split
      · rename_i hb
        by_cases hc : c = a
        · subst hc
          have : k ≠ c := by omega
          simp [fbGet, this, hz, hb]
        · simp [hc]
      · by_cases hc : c = a
        · simp [fbGet, hc]
        · have : a ≠ c := fun h => hc h.symm
          simp [fbGet, hc, this]
    · split
      · rename_i hak
        subst hak
        have hz : fbGet m a = 0x00#8 := below (by omega)
        split
        · rename_i hb
          by_cases hc : c = a
          · subst hc; simp [hz, hb]
          · have : a ≠ c := fun h => hc h.symm
            simp [fbGet, hc, this]
        · by_cases hc : c = a
          · simp [fbGet, hc]
          · have : a ≠ c := fun h => hc h.symm
            simp [fbGet, hc, this]
      · rename_i hlt hne
        by_cases hk : k = c
        · subst hk
          have : ¬ k = a := fun h => hne h.symm
          simp [fbGet, this]
        · simp [fbGet, hk, ih]

/-- A write inside the space keeps the canonical form. -/
theorem wfFrom_fbSet {lo size a : Nat} {m : Memory} {b : Byte} (h : wfFrom lo size m = true) (hlo : lo ≤ a) (ha : a < size) :
    wfFrom lo size (fbSet m a b) = true := by
  induction m generalizing lo with
  | nil =>
    unfold fbSet
    split
    · rfl
    · rename_i hb
      rw [wfFrom_cons]
      exact ⟨hlo, ha, hb, rfl⟩
  | cons e m ih =>
    obtain ⟨k, v⟩ := e
    rw [wfFrom_cons] at h
    unfold fbSet
    split
    · rename_i hak
      split
      · rw [wfFrom_cons]; exact h
      · rename_i hb
        rw [wfFrom_cons, wfFrom_cons]
        exact ⟨hlo, ha, hb, by omega, h.2⟩
    · split
      · rename_i hak
        subst hak
        split
        · exact wfFrom_mono h.2.2.2 (by omega)
        · rename_i hb
          rw [wfFrom_cons]
          exact ⟨hlo, ha, hb, h.2.2.2⟩
      · rw [wfFrom_cons]
        exact ⟨h.1, h.2.1, h.2.2.1, ih h.2.2.2 (by omega)⟩

/-- Canonical memories that read alike are equal. -/
theorem eq_of_fbGet_eq {lo size : Nat} {m m' : Memory} (h : wfFrom lo size m = true) (h' : wfFrom lo size m' = true)
    (hr : ∀ a, fbGet m a = fbGet m' a) : m = m' := by
  induction m generalizing lo m' with
  | nil =>
    cases m' with
    | nil => rfl
    | cons e m' =>
      obtain ⟨k, v⟩ := e
      rw [wfFrom_cons] at h'
      have := hr k
      simp [fbGet] at this
      exact absurd this.symm h'.2.2.1
  | cons e m ih =>
    obtain ⟨k, v⟩ := e
    cases m' with
    | nil =>
      rw [wfFrom_cons] at h
      have := hr k
      simp [fbGet] at this
      exact absurd this h.2.2.1
    | cons e' m' =>
      obtain ⟨k', v'⟩ := e'
      rw [wfFrom_cons] at h h'
      have hk : k = k' := by
        by_contra hne
        rcases Nat.lt_or_gt_of_ne hne with hlt | hlt
        · have hz := fbGet_below (a := k) h'.2.2.2 (by omega)
          have := hr k
          have hne' : ¬ k' = k := by omega
          simp [fbGet, hne', hz] at this
          exact h.2.2.1 this
        · have hz := fbGet_below (a := k') h.2.2.2 (by omega)
          have := hr k'
          have hne' : ¬ k = k' := by omega
          simp [fbGet, hne', hz] at this
          exact h'.2.2.1 this.symm
      subst hk
      have hv : v = v' := by simpa [fbGet] using hr k
      subst hv
      congr 1
      refine ih h.2.2.2 h'.2.2.2 (fun a => ?_)
      by_cases hak : k = a
      · subst hak
        rw [fbGet_below h.2.2.2 (by omega), fbGet_below h'.2.2.2 (by omega)]
      · simpa [fbGet, hak] using hr a

/-! ### Byte strings in the frame buffer -/

@[simp] theorem fbBytes_length (m : Memory) (a n : Nat) : (fbBytes m a n).length = n := by
  induction n generalizing a with
  | zero => rfl
  | succ n ih => simp [fbBytes, ih]

theorem fbBytes_getElem? (m : Memory) (a n i : Nat) : (fbBytes m a n)[i]? = if i < n then some (fbGet m (a + i)) else none := by
  induction n generalizing a i with
  | zero => simp [fbBytes]
  | succ n ih =>
    cases i with
    | zero => simp [fbBytes]
    | succ i => simp [fbBytes, ih, Nat.add_assoc, Nat.add_comm 1 i]

/-- Reading `n` bytes from offset `a` on. -/
theorem fbBytes_eq_map (m : Memory) (a n : Nat) : fbBytes m a n = (List.range n).map (fun i => fbGet m (a + i)) := by
  apply List.ext_getElem?
  intro i
  rw [fbBytes_getElem?]
  by_cases h : i < n <;> simp [h]

/-- A read of consecutive bytes splits at any point. -/
theorem fbBytes_add (m : Memory) (a n k : Nat) : fbBytes m a (n + k) = fbBytes m a n ++ fbBytes m (a + n) k := by
  induction n generalizing a with
  | zero => simp [fbBytes]
  | succ n ih =>
    have e : a + 1 + n = a + (n + 1) := by omega
    rw [Nat.succ_add]
    simp [fbBytes, ih, e]

/-- Bytes that read alike give the same string. -/
theorem fbBytes_congr {m m' : Memory} {a n : Nat} (h : ∀ i, a ≤ i → i < a + n → fbGet m i = fbGet m' i) :
    fbBytes m a n = fbBytes m' a n := by
  induction n generalizing a with
  | zero => rfl
  | succ n ih =>
    simp only [fbBytes]
    rw [h a (by omega) (by omega), ih (fun i h1 h2 => h i (by omega) (by omega))]

theorem wfFrom_fbSetBytes {lo size a : Nat} {m : Memory} {s : List Byte} (h : wfFrom lo size m = true) (hlo : lo ≤ a)
    (ha : a + s.length ≤ size) : wfFrom lo size (fbSetBytes m a s) = true := by
  induction s generalizing m a with
  | nil => exact h
  | cons b s ih =>
    simp only [List.length_cons] at ha
    exact ih (wfFrom_fbSet h hlo (by omega)) (by omega) (by omega)

/-- Read after a write of a byte string: its bytes at their offsets, every other byte as before. -/
theorem fbGet_fbSetBytes {lo size : Nat} {m : Memory} {a : Nat} {s : List Byte} (h : wfFrom lo size m = true) (hlo : lo ≤ a)
    (ha : a + s.length ≤ size) (c : Nat) :
    fbGet (fbSetBytes m a s) c = if a ≤ c ∧ c < a + s.length then s.getD (c - a) 0x00#8 else fbGet m c := by
  induction s generalizing m a with
  | nil => simp [fbSetBytes]
  | cons b s ih =>
    simp only [List.length_cons] at ha ⊢
    simp only [fbSetBytes]
    rw [ih (wfFrom_fbSet h hlo (by omega)) (by omega) (by omega), fbGet_fbSet h]
    by_cases hc : c = a
    · subst hc
      have h1 : ¬ (c + 1 ≤ c ∧ c < c + 1 + s.length) := by omega
      have h2 : c ≤ c ∧ c < c + (s.length + 1) := by omega
      rw [if_neg h1, if_pos h2]
      simp
    · by_cases hr : a ≤ c ∧ c < a + (s.length + 1)
      · have h1 : a + 1 ≤ c ∧ c < a + 1 + s.length := by omega
        rw [if_pos h1, if_pos hr]
        have : c - a = (c - (a + 1)) + 1 := by omega
        rw [this]
        simp
      · have h1 : ¬ (a + 1 ≤ c ∧ c < a + 1 + s.length) := by omega
        rw [if_neg h1, if_neg hr, if_neg hc]

/-- Writing two strings one behind the other is writing their concatenation. -/
theorem fbSetBytes_append (m : Memory) (a : Nat) (s t : List Byte) :
    fbSetBytes m a (s ++ t) = fbSetBytes (fbSetBytes m a s) (a + s.length) t := by
  induction s generalizing m a with
  | nil => rfl
  | cons b s ih => simp [fbSetBytes, ih, Nat.add_assoc, Nat.add_comm 1]

/-- Reading back what was just written. -/
theorem fbBytes_fbSetBytes {lo size : Nat} {m : Memory} {a : Nat} {s : List Byte} (h : wfFrom lo size m = true) (hlo : lo ≤ a)
    (ha : a + s.length ≤ size) : fbBytes (fbSetBytes m a s) a s.length = s := by
  apply List.ext_getElem?
  intro i
  rw [fbBytes_getElem?]
  by_cases hi : i < s.length
  · rw [if_pos hi, fbGet_fbSetBytes h hlo ha, if_pos (by omega)]
    simp [hi]
  · simp [hi]

/-! ### The checked accesses -/

theorem fbRead_ok {p : Params} {m : Memory} {a : Nat} (h : a < p.fbSize) : fbRead p m a = .ok (fbGet m a) := by
  simp [fbRead, h]

theorem memRead_ok {p : Params} {m : Memory} {a n : Nat} (h : a + n ≤ p.fbSize) : memRead p m a n = .ok (fbBytes m a n) := by
  simp [memRead, h]

/-- A read of the frame buffer answers bytes only inside the space. -/
theorem memRead_eq_ok {p : Params} {m : Memory} {a n : Nat} {f : List Byte} (h : memRead p m a n = .ok f) :
    a + n ≤ p.fbSize ∧ f = fbBytes m a n := by
  unfold memRead at h
  split at h
  · rename_i hc
    injection h with h
    exact ⟨hc, h.symm⟩
  · cases h

theorem memRead_fault {p : Params} {m : Memory} {a n : Nat} (h : p.fbSize < a + n) :
    memRead p m a n = .error (.outsideFrameBuffer (a + n)) := by
  simp [memRead, Nat.not_le.mpr h]

theorem memWrite_ok {p : Params} {m : Memory} {a : Nat} {s : List Byte} (h : a + s.length ≤ p.fbSize) :
    memWrite p m a s = .ok (fbSetBytes m a s) := by
  simp [memWrite, h]

/-- A write to the frame buffer happens only inside the space. -/
theorem memWrite_eq_ok {p : Params} {m m' : Memory} {a : Nat} {s : List Byte} (h : memWrite p m a s = .ok m') :
    a + s.length ≤ p.fbSize ∧ m' = fbSetBytes m a s := by
  unfold memWrite at h
  split at h
  · rename_i hc
    injection h with h
    exact ⟨hc, h.symm⟩
  · cases h

/-- A write to the frame buffer keeps its canonical form. -/
theorem memWrite_wf {p : Params} {m m' : Memory} {a : Nat} {s : List Byte} (hm : Memory.wf p m = true)
    (h : memWrite p m a s = .ok m') : Memory.wf p m' = true := by
  obtain ⟨hc, rfl⟩ := memWrite_eq_ok h
  exact wfFrom_fbSetBytes hm (Nat.zero_le a) hc

@[simp] theorem wf_nil (p : Params) : Memory.wf p [] = true := rfl

/-- The reset state's frame buffer has the canonical form, for any parameters. -/
theorem reset_memory_wf (p : Params) : Memory.wf p State.reset.fb = true := rfl

/-- Invalidate leaves the canonical form. -/
theorem invalidate_memory_wf (p : Params) (s : State) : Memory.wf p (invalidate s).fb = true := rfl

end Machine
end Sys2Proof
end

