-- ==== Sys2Proof/Laws/Operands.lean ====
section
/-! SUPPORT. What the byte selections and the string accessors can do. -/

namespace Sys2Proof
namespace Machine

/-- `be16(h, l) = h * 256 + l` (00_scope.md R8). -/
theorem be16_toNat (h l : Byte) : (be16 h l).toNat = h.toNat * 256 + l.toNat := by
  have e : (be16 h l).toNat = h.toNat <<< 8 ||| l.toNat := BitVec.toNat_append h l
  rw [e, ← Nat.shiftLeft_add_eq_or_of_lt (b := l.toNat) (i := 8) l.isLt, Nat.shiftLeft_eq]

theorem hi8_toNat (v : Half) : (hi8 v).toNat = v.toNat / 256 := by
  have := v.isLt
  simp [hi8, Nat.shiftRight_eq_div_pow]
  omega

theorem lo8_toNat (v : Half) : (lo8 v).toNat = v.toNat % 256 := by
  simp [lo8]

@[simp] theorem hi8_be16 (h l : Byte) : hi8 (be16 h l) = h := by
  apply BitVec.eq_of_toNat_eq
  have := l.isLt
  rw [hi8_toNat, be16_toNat]
  omega

@[simp] theorem lo8_be16 (h l : Byte) : lo8 (be16 h l) = l := by
  apply BitVec.eq_of_toNat_eq
  have := l.isLt
  rw [lo8_toNat, be16_toNat]
  omega

@[simp] theorem be16_hi8_lo8 (v : Half) : be16 (hi8 v) (lo8 v) = v := by
  apply BitVec.eq_of_toNat_eq
  rw [be16_toNat, hi8_toNat, lo8_toNat]
  omega

/-- A string read inside the string answers its byte. -/
theorem byteAt_ok {s : List Byte} {i : Nat} (h : i < s.length) : byteAt s i = .ok s[i] := by
  simp [byteAt, List.getElem?_eq_getElem h]

/-- A string read answers a byte only inside the string. -/
theorem byteAt_eq_ok_iff {s : List Byte} {i : Nat} {b : Byte} : byteAt s i = .ok b ↔ s[i]? = some b := by
  unfold byteAt
  split <;> simp_all

@[simp] theorem byteAt_cons_zero (b : Byte) (s : List Byte) : byteAt (b :: s) 0 = .ok b := rfl

@[simp] theorem byteAt_cons_succ (b : Byte) (s : List Byte) (i : Nat) (h : i < s.length) :
    byteAt (b :: s) (i + 1) = byteAt s i := by
  simp [byteAt, List.getElem?_eq_getElem h]

/-- A slice inside the string answers its bytes. -/
theorem slice_ok {s : List Byte} {a b : Nat} (hab : a ≤ b) (hb : b ≤ s.length) :
    slice s a b = .ok ((s.drop a).take (b - a)) := by
  simp [slice, hab, hb]

/-- The slice that a middle part of a string occupies is that part. -/
theorem slice_append_mid (l m r : List Byte) (a b : Nat) (ha : a = l.length) (hb : b = l.length + m.length) :
    slice (l ++ (m ++ r)) a b = .ok m := by
  subst ha hb
  rw [slice_ok (by omega) (by simp)]
  simp

/-- A slice has the length asked for. -/
theorem slice_eq_ok {s t : List Byte} {a b : Nat} (h : slice s a b = .ok t) :
    a ≤ b ∧ b ≤ s.length ∧ t = (s.drop a).take (b - a) ∧ t.length = b - a := by
  unfold slice at h
  split at h
  · rename_i hc
    injection h with h
    subst h
    refine ⟨hc.1, hc.2, rfl, ?_⟩
    simp
    omega
  · cases h

/-- Bytes after the end of a slice do not change it. -/
theorem slice_append_right {s : List Byte} {a b : Nat} (extra : List Byte) (hab : a ≤ b) (hb : b ≤ s.length) :
    slice (s ++ extra) a b = slice s a b := by
  rw [slice_ok hab hb, slice_ok hab (by simp; omega)]
  congr 1
  rw [List.drop_append_of_le_length (by omega), List.take_append_of_le_length (by simp; omega)]

/-- Bytes after an offset do not change what stands there. -/
theorem byteAt_append_right {s : List Byte} {i : Nat} (extra : List Byte) (h : i < s.length) :
    byteAt (s ++ extra) i = byteAt s i := by
  simp [byteAt, List.getElem?_append_left h]

end Machine
end Sys2Proof
end

