-- ==== Sys2Proof/Laws/Framer.lean ====
section
/-! SUPPORT. What each operation of the framer can do, once each. -/

namespace Sys2Proof
namespace Machine

/-! ### Steps of a computation that may fault -/

@[simp] theorem except_bind_ok {α β : Type} (a : α) (f : α → Except Fault β) : (Except.ok a >>= f) = f a := rfl

@[simp] theorem except_bind_error {α β : Type} (e : Fault) (f : α → Except Fault β) : (Except.error e >>= f) = Except.error e := rfl

/-- A computation in two parts answers only if both parts do. -/
theorem except_bind_eq_ok {α β : Type} {x : Except Fault α} {f : α → Except Fault β} {b : β} (h : (x >>= f) = .ok b) :
    ∃ a, x = .ok a ∧ f a = .ok b := by
  cases x with
  | ok a => exact ⟨a, rfl, h⟩
  | error e => cases h

@[simp] theorem outcomeOf_ok (s : State) : outcomeOf (.ok s) = .next s := rfl

@[simp] theorem outcomeOf_error (f : Fault) : outcomeOf (.error f) = .fault f := rfl

/-- A command goes on exactly when its computation stays inside the spaces. -/
theorem outcomeOf_eq_next {r : Except Fault State} {t : State} : outcomeOf r = .next t ↔ r = .ok t := by
  cases r <;> simp [outcomeOf]

/-! ### The parts of a frame -/

@[simp] theorem preamble_cons (b : Byte) (rest : List Byte) : preamble (b :: rest) = .ok (preambleFor b) := rfl

/-- The preamble chosen by value: bit 7 of the first address byte is set exactly when the byte is at least `0x80` (R85). -/
theorem preambleFor_eq (b : Byte) : preambleFor b = if 0x80 ≤ b.toNat then 0xAA#8 else 0x55#8 := by
  have h : b.getLsbD 7 = decide (0x80 ≤ b.toNat) := by
    have := BitVec.msb_eq_decide b
    rw [BitVec.msb_eq_getLsbD_last] at this
    exact this
  unfold preambleFor
  rw [h]
  simp

/-- The body is the one string preamble, address, payload, written from offset 0 on. -/
theorem writeBody_ok {p : Params} {m : Memory} {first : Byte} {others payload : List Byte}
    (h : 2 + others.length + payload.length ≤ p.fbSize) :
    writeBody p m (first :: others) payload =
      .ok (fbSetBytes m 0 (preambleFor first :: ((first :: others) ++ payload))) := by
  unfold writeBody
  rw [preamble_cons, except_bind_ok, memWrite_ok (by simp; omega), except_bind_ok, memWrite_ok (by simp; omega), except_bind_ok,
    memWrite_ok (by simp; omega)]
  have e : preambleFor first :: ((first :: others) ++ payload) = [preambleFor first] ++ ((first :: others) ++ payload) := rfl
  rw [e, fbSetBytes_append, fbSetBytes_append]
  simp

/-- Over the frame buffer the loop of R87 is the checksum of the bytes there. -/
theorem crcOverFrame_ok {p : Params} {m : Memory} {a n : Nat} (c : Half) (h : a + n ≤ p.fbSize) :
    crcOverFrame p m a n c = .ok (crcBytesFrom c (fbBytes m a n)) := by
  induction n generalizing a c with
  | zero => rfl
  | succ n ih =>
    simp only [crcOverFrame, fbBytes, crcBytesFrom_cons]
    rw [fbRead_ok (by omega), except_bind_ok, ih _ (by omega)]

/-- The checksum of the window (R87, R88). -/
theorem windowCrc_ok {p : Params} {m : Memory} {alen plen : Nat} (h : 1 + alen + plen < p.fbSize) :
    windowCrc p m alen plen =
      .ok (crcUpdate (crcBytesFrom crcInit (fbBytes m 1 (alen + plen))) (fbGet m (alen + 1 + plen) &&& 0x80#8) 0x01#8) := by
  unfold windowCrc
  rw [crcOverFrame_ok _ (by omega), except_bind_ok, fbRead_ok (by omega), except_bind_ok]

/-- The two CRC bytes, high byte first (R90). -/
theorem writeCrc_ok {p : Params} {m : Memory} {alen plen : Nat} (c : Half) (h : 3 + alen + plen ≤ p.fbSize) :
    writeCrc p m alen plen c = .ok (fbSetBytes m (1 + alen + plen) [hi8 c, lo8 c]) := by
  unfold writeCrc
  rw [memWrite_ok (by simp; omega), except_bind_ok, memWrite_ok (by simp; omega)]
  have e : 1 + alen + plen + 1 = 2 + alen + plen := by omega
  simp [fbSetBytes, e]

/-- The two CRC bytes behind a body complete it to one string written from offset 0 on. -/
theorem writeCrc_after_body {p : Params} {m : Memory} {body : List Byte} {alen plen : Nat} (c : Half)
    (hb : body.length = 1 + alen + plen) (h : 3 + alen + plen ≤ p.fbSize) :
    writeCrc p (fbSetBytes m 0 body) alen plen c = .ok (fbSetBytes m 0 (body ++ [hi8 c, lo8 c])) := by
  rw [writeCrc_ok c h, fbSetBytes_append, hb, Nat.zero_add]

/-- Over a body written into a cleared frame buffer the window's checksum is that of address and payload and one zero bit: the byte behind
the payload still holds `0x00` (R87, R88, R92). -/
theorem windowCrc_after_body {p : Params} {pre : Byte} {address payload : List Byte}
    (h : 1 + address.length + payload.length < p.fbSize) :
    windowCrc p (fbSetBytes [] 0 (pre :: (address ++ payload))) address.length payload.length = .ok (frameCrc address payload) := by
  have h0 : wfFrom 0 p.fbSize (fbSet [] 0 pre) = true := wfFrom_fbSet rfl (Nat.le_refl 0) (by omega)
  have hlen : 0 + 1 + (address ++ payload).length ≤ p.fbSize := by simp; omega
  rw [windowCrc_ok h]
  have hbytes : fbBytes (fbSetBytes [] 0 (pre :: (address ++ payload))) 1 (address.length + payload.length) = address ++ payload := by
    have := fbBytes_fbSetBytes h0 (Nat.zero_le _) hlen
    simpa [fbSetBytes] using this
  have hzero : fbGet (fbSetBytes [] 0 (pre :: (address ++ payload))) (address.length + 1 + payload.length) = 0x00#8 := by
    have hc : ¬ (0 + 1 ≤ address.length + 1 + payload.length ∧
        address.length + 1 + payload.length < 0 + 1 + (address ++ payload).length) := by simp; omega
    simp only [fbSetBytes]
    rw [fbGet_fbSetBytes h0 (Nat.zero_le _) hlen, if_neg hc, fbGet_fbSet (m := []) (lo := 0) (size := p.fbSize) rfl]
    simp
  rw [hbytes, hzero]
  rfl

/-- The registers and the response of a completed frame (R91, R107). -/
theorem holdPacket_ok {p : Params} {alen plen crclen chan : Byte} {c : Half} {m : Memory} {s : State}
    (h : frameLength alen.toNat plen.toNat ≤ p.fbSize) :
    holdPacket p alen plen crclen chan c m s =
      .ok { s with alen := alen, plen := plen, crclen := crclen, chan := chan, pcrc := c,
                   flen := BitVec.ofNat 16 (frameLength alen.toNat plen.toNat), fstat := statusOk, fb := m,
                   responses := s.responses ++ [statusOk :: fbBytes m 0 (frameLength alen.toNat plen.toNat)] } := by
  unfold holdPacket
  rw [memRead_ok (by omega)]
  rfl

/-- What completing a frame can do: it answers only when the frame is inside `FB`. -/
theorem holdPacket_eq_ok {p : Params} {alen plen crclen chan : Byte} {c : Half} {m : Memory} {s t : State}
    (h : holdPacket p alen plen crclen chan c m s = .ok t) :
    frameLength alen.toNat plen.toNat ≤ p.fbSize ∧
    t = { s with alen := alen, plen := plen, crclen := crclen, chan := chan, pcrc := c,
                 flen := BitVec.ofNat 16 (frameLength alen.toNat plen.toNat), fstat := statusOk, fb := m,
                 responses := s.responses ++ [statusOk :: fbBytes m 0 (frameLength alen.toNat plen.toNat)] } := by
  unfold holdPacket at h
  obtain ⟨f, hf, h⟩ := except_bind_eq_ok h
  obtain ⟨hb, rfl⟩ := memRead_eq_ok hf
  injection h with h
  exact ⟨by omega, h.symm⟩

/-- The supported address lengths (R83, R102). -/
theorem alenSupported_iff {p : Params} {alen : Byte} :
    alenSupported p alen = true ↔ p.alenMin ≤ alen.toNat ∧ alen.toNat ≤ p.alenMax := by
  simp [alenSupported]

theorem plenSupported_iff {p : Params} {plen : Byte} : plenSupported p plen = true ↔ plen.toNat ≤ p.plenMax := by
  simp [plenSupported]

theorem crclenSupported_iff {crclen : Byte} : crclenSupported crclen = true ↔ crclen = 0x01#8 ∨ crclen = 0x02#8 := by
  simp [crclenSupported]

@[simp] theorem esbf_fbSize : Params.esbf.fbSize = 40 := rfl

@[simp] theorem esbf_alenMin : Params.esbf.alenMin = 1 := rfl

@[simp] theorem esbf_alenMax : Params.esbf.alenMax = 5 := rfl

@[simp] theorem esbf_plenMax : Params.esbf.plenMax = 32 := rfl

/-! ### What the two large commands can do -/

/-- `FRM.BUILD` on a blob whose fixed part is incomplete (R82). -/
theorem build_short {p : Params} {blob : List Byte} {s : State} (h : blob.length < 6) :
    build p blob s = .ok (raise .malformedRequest (invalidate s)) := by
  unfold build
  rw [if_pos (by simpa [blobFixed] using h)]

/-- `FRM.BUILD` on a blob with its fixed part, as a choice between three cases (R82, R83). -/
theorem build_fields (p : Params) (chan alen plen q n crclen : Byte) (rest : List Byte) (s : State) :
    build p (chan :: alen :: plen :: q :: n :: crclen :: rest) s =
      if rest.length < alen.toNat + plen.toNat then .ok (raise .malformedRequest (invalidate s))
      else if (alenSupported p alen && plenSupported p plen && crclenSupported crclen) = true then
        assemble p (chan :: alen :: plen :: q :: n :: crclen :: rest) alen plen crclen (invalidate s)
      else .ok (raise .unsupportedLength (invalidate s)) := by
  unfold build
  rw [if_neg (by simp [blobFixed])]
  simp only [blobAlen, blobPlen, blobCrclen, byteAt, List.getElem?_cons_succ, List.getElem?_cons_zero, except_bind_ok]
  by_cases hl : rest.length < alen.toNat + plen.toNat
  · rw [if_pos hl, if_pos (by simp [blobFixed]; omega)]
  · rw [if_neg hl, if_neg (by simp [blobFixed]; omega)]

/-- A blob with its fixed part has the six fields of R47 and a tail. -/
theorem blob_fields {blob : List Byte} (h : 6 ≤ blob.length) :
    ∃ chan alen plen q n crclen rest, blob = chan :: alen :: plen :: q :: n :: crclen :: rest := by
  match blob, h with
  | chan :: alen :: plen :: q :: n :: crclen :: rest, _ => exact ⟨chan, alen, plen, q, n, crclen, rest, rfl⟩
  | [], h => simp at h
  | [_], h => simp at h
  | [_, _], h => simp at h
  | [_, _, _], h => simp at h
  | [_, _, _, _], h => simp at h
  | [_, _, _, _, _], h => simp at h

/-- `FRM.BUILD`: a blob too short for its fixed part, too short for its declared lengths, with an unsupported length, or assembled
(R93). -/
theorem build_cases {p : Params} {blob : List Byte} {s t : State} (h : build p blob s = .ok t) :
    (blob.length < 6 ∧ t = raise .malformedRequest (invalidate s)) ∨
    ∃ chan alen plen q n crclen rest, blob = chan :: alen :: plen :: q :: n :: crclen :: rest ∧
      ((rest.length < alen.toNat + plen.toNat ∧ t = raise .malformedRequest (invalidate s)) ∨
       (alen.toNat + plen.toNat ≤ rest.length ∧
        ¬ (alenSupported p alen && plenSupported p plen && crclenSupported crclen) = true ∧
        t = raise .unsupportedLength (invalidate s)) ∨
       (alen.toNat + plen.toNat ≤ rest.length ∧
        (alenSupported p alen && plenSupported p plen && crclenSupported crclen) = true ∧
        assemble p blob alen plen crclen (invalidate s) = .ok t)) := by
  by_cases h6 : blob.length < 6
  · rw [build_short h6] at h
    injection h with h
    exact .inl ⟨h6, h.symm⟩
  obtain ⟨chan, alen, plen, q, n, crclen, rest, rfl⟩ := blob_fields (Nat.le_of_not_lt h6)
  refine .inr ⟨chan, alen, plen, q, n, crclen, rest, rfl, ?_⟩
  rw [build_fields] at h
  by_cases hl : rest.length < alen.toNat + plen.toNat
  · rw [if_pos hl] at h
    injection h with h
    exact .inl ⟨hl, h.symm⟩
  · rw [if_neg hl] at h
    by_cases hs : (alenSupported p alen && plenSupported p plen && crclenSupported crclen) = true
    · rw [if_pos hs] at h
      exact .inr (.inr ⟨by omega, hs, h⟩)
    · rw [if_neg hs] at h
      injection h with h
      exact .inr (.inl ⟨by omega, hs, h.symm⟩)

/-- `FRM.CHECK` as a choice between three cases (R101, R102). -/
theorem check_eq (p : Params) (alen crclen : Byte) (raw : List Byte) (s : State) :
    check p alen crclen raw s =
      if raw.length < alen.toNat + 14 then .ok (raise .malformedRequest (invalidate s))
      else if (alenSupported p alen && crclenSupported crclen) = true then checkFrame p alen crclen raw (invalidate s)
      else .ok (raise .unsupportedLength (invalidate s)) := by
  unfold check
  by_cases hl : raw.length < alen.toNat + 14
  · rw [if_pos hl, if_pos (by simp [frameLength, parsePlen, crcBytes]; omega)]
  · rw [if_neg hl, if_neg (by simp [frameLength, parsePlen, crcBytes]; omega)]

/-- `FRM.CHECK`: a buffer too short, an unsupported length, or the comparison (R108). -/
theorem check_cases {p : Params} {alen crclen : Byte} {raw : List Byte} {s t : State} (h : check p alen crclen raw s = .ok t) :
    (raw.length < alen.toNat + 14 ∧ t = raise .malformedRequest (invalidate s)) ∨
    (alen.toNat + 14 ≤ raw.length ∧ ¬ (alenSupported p alen && crclenSupported crclen) = true ∧
      t = raise .unsupportedLength (invalidate s)) ∨
    (alen.toNat + 14 ≤ raw.length ∧ (alenSupported p alen && crclenSupported crclen) = true ∧
      checkFrame p alen crclen raw (invalidate s) = .ok t) := by
  rw [check_eq] at h
  by_cases hl : raw.length < alen.toNat + 14
  · rw [if_pos hl] at h
    injection h with h
    exact .inl ⟨hl, h.symm⟩
  · rw [if_neg hl] at h
    by_cases hs : (alenSupported p alen && crclenSupported crclen) = true
    · rw [if_pos hs] at h
      exact .inr (.inr ⟨by omega, hs, h⟩)
    · rw [if_neg hs] at h
      injection h with h
      exact .inr (.inl ⟨by omega, hs, h.symm⟩)

/-- `FRM.READ`: it answers only when `FLEN` is inside the frame buffer, and then only its response is new (R112). -/
theorem readFrame_eq_ok {p : Params} {s t : State} (h : readFrame p s = .ok t) :
    s.flen.toNat ≤ p.fbSize ∧ t = respond (statusOk :: fbBytes s.fb 0 s.flen.toNat) s := by
  unfold readFrame at h
  obtain ⟨f, hf, h⟩ := except_bind_eq_ok h
  obtain ⟨hb, rfl⟩ := memRead_eq_ok hf
  injection h with h
  exact ⟨by omega, h.symm⟩

/-- `FRM.READ` inside the frame buffer. -/
theorem readFrame_ok {p : Params} {s : State} (h : s.flen.toNat ≤ p.fbSize) :
    readFrame p s = .ok (respond (statusOk :: fbBytes s.fb 0 s.flen.toNat) s) := by
  unfold readFrame
  rw [memRead_ok (by omega)]
  rfl

end Machine
end Sys2Proof
end

