-- ==== Sys2Proof/Laws/PerInstr.lean ====
section
/-! SUPPORT. The families of statements made per instruction. `EncodedShape`: the encoding begins with the opcode byte that
30_encoding.md R50 gives the command, and its length is one its format requires (R45). -/

namespace Sys2Proof
namespace Laws

/-- There is one row of the opcode map for the command, and the encoding fits it. -/
def EncodedShape.Statement (i : Instr) : Prop :=
  i.wf = true → ∃ row ∈ opcodeMap, row.op = opOf i ∧ (encode i).head? = some row.opcode ∧
    row.format.lengthOk (encode i).length = true

theorem EncodedShape.crcInit : EncodedShape.Statement .crcInit := by
  intro _; exact ⟨⟨0x01#8, .crcInit, .c0⟩, by decide, rfl, rfl, rfl⟩

theorem EncodedShape.crcLoad (hi lo : Byte) : EncodedShape.Statement (.crcLoad hi lo) := by
  intro _; exact ⟨⟨0x02#8, .crcLoad, .c2⟩, by decide, rfl, rfl, rfl⟩

theorem EncodedShape.crcUpdb (data : Byte) : EncodedShape.Statement (.crcUpdb data) := by
  intro _; exact ⟨⟨0x03#8, .crcUpdb, .c1⟩, by decide, rfl, rfl, rfl⟩

theorem EncodedShape.crcUpdn (data bits : Byte) : EncodedShape.Statement (.crcUpdn data bits) := by
  intro _; exact ⟨⟨0x04#8, .crcUpdn, .c2⟩, by decide, rfl, rfl, rfl⟩

theorem EncodedShape.crcRead : EncodedShape.Statement .crcRead := by
  intro _; exact ⟨⟨0x05#8, .crcRead, .c0⟩, by decide, rfl, rfl, rfl⟩

theorem EncodedShape.frmBuild (blob : List Byte) : EncodedShape.Statement (.frmBuild blob) := by
  intro _; exact ⟨⟨0x10#8, .frmBuild, .cb⟩, by decide, rfl, rfl, by simp [encode, Format.lengthOk]⟩

theorem EncodedShape.frmCheck (alen crclen : Byte) (raw : List Byte) : EncodedShape.Statement (.frmCheck alen crclen raw) := by
  intro _; exact ⟨⟨0x11#8, .frmCheck, .ck⟩, by decide, rfl, rfl, by simp [encode, Format.lengthOk]⟩

theorem EncodedShape.frmRead : EncodedShape.Statement .frmRead := by
  intro _; exact ⟨⟨0x12#8, .frmRead, .c0⟩, by decide, rfl, rfl, rfl⟩

theorem EncodedShape.frmInfo : EncodedShape.Statement .frmInfo := by
  intro _; exact ⟨⟨0x13#8, .frmInfo, .c0⟩, by decide, rfl, rfl, rfl⟩

end Laws
end Sys2Proof
end

