-- ==== Sys2Proof/Laws/Safety.lean ====
section
/-! SUPPORT. Lemmas about the terms of Sys2Proof/Safety.lean: the frame of R32, the memory that holds it, the states `withPacket` and
`failedWith`, the invariant of R21. -/

namespace Sys2Proof
namespace Machine

/-! ### The frame and the memory that holds it -/

@[simp] theorem frameOf_length (address payload : List Byte) :
    (frameOf address payload).length = 3 + address.length + payload.length := by
  simp [frameOf]; omega

/-- A frame as its body and its two CRC bytes. -/
theorem frameOf_eq_body_append (first : Byte) (others payload : List Byte) :
    frameOf (first :: others) payload =
      (preambleFor first :: ((first :: others) ++ payload)) ++
        [hi8 (frameCrc (first :: others) payload), lo8 (frameCrc (first :: others) payload)] := by
  simp [frameOf, preambleFor_eq]

theorem memoryOf_wf {p : Params} {f : List Byte} (h : f.length ≤ p.fbSize) : Memory.wf p (memoryOf f) = true :=
  wfFrom_fbSetBytes rfl (Nat.le_refl 0) (by omega)

/-- The memory of a byte string reads as the string, and as `0x00` behind it. -/
theorem fbGet_memoryOf {f : List Byte} (h : f.length ≤ 40) (i : Nat) : fbGet (memoryOf f) i = f.getD i 0x00#8 := by
  unfold memoryOf
  rw [fbGet_fbSetBytes (lo := 0) (size := 40) rfl (Nat.le_refl 0) (by omega)]
  by_cases hi : i < f.length
  · rw [if_pos (by omega)]; simp
  · rw [if_neg (by omega)]; simp [Nat.not_lt.mp hi]

theorem fbBytes_memoryOf {f : List Byte} (h : f.length ≤ 40) : fbBytes (memoryOf f) 0 f.length = f :=
  fbBytes_fbSetBytes (lo := 0) (size := 40) rfl (Nat.le_refl 0) (by omega)

/-- A part of a byte string read back from its memory. -/
theorem fbBytes_memoryOf_part {f a b c : List Byte} (h : f = a ++ (b ++ c)) (hl : f.length ≤ 40) :
    fbBytes (memoryOf f) a.length b.length = b := by
  apply List.ext_getElem?
  intro i
  rw [fbBytes_getElem?]
  by_cases hi : i < b.length
  · rw [if_pos hi, fbGet_memoryOf hl, h, List.getD_append_right _ _ _ _ (by omega), List.getD_append _ _ _ _ (by omega)]
    simp [hi]
  · simp [hi]

/-! ### The states after a framer command -/

section
variable (address payload : List Byte) (crclen chan : Byte) (s : State)

@[simp] theorem withPacket_crc : (withPacket address payload crclen chan s).crc = s.crc := rfl
@[simp] theorem withPacket_alen : (withPacket address payload crclen chan s).alen = BitVec.ofNat 8 address.length := rfl
@[simp] theorem withPacket_plen : (withPacket address payload crclen chan s).plen = BitVec.ofNat 8 payload.length := rfl
@[simp] theorem withPacket_crclen : (withPacket address payload crclen chan s).crclen = crclen := rfl
@[simp] theorem withPacket_chan : (withPacket address payload crclen chan s).chan = chan := rfl
@[simp] theorem withPacket_pcrc : (withPacket address payload crclen chan s).pcrc = frameCrc address payload := rfl
@[simp] theorem withPacket_flen :
    (withPacket address payload crclen chan s).flen = BitVec.ofNat 16 (address.length + payload.length + 3) := rfl
@[simp] theorem withPacket_fstat : (withPacket address payload crclen chan s).fstat = 0x00#8 := rfl
@[simp] theorem withPacket_fb : (withPacket address payload crclen chan s).fb = memoryOf (frameOf address payload) := rfl
@[simp] theorem withPacket_pending : (withPacket address payload crclen chan s).pending = s.pending := rfl
@[simp] theorem withPacket_responses :
    (withPacket address payload crclen chan s).responses = s.responses ++ [0x00#8 :: frameOf address payload] := rfl

@[simp] theorem failedWith_crc (code : Byte) : (failedWith code s).crc = s.crc := rfl
@[simp] theorem failedWith_alen (code : Byte) : (failedWith code s).alen = 0x00#8 := rfl
@[simp] theorem failedWith_plen (code : Byte) : (failedWith code s).plen = 0x00#8 := rfl
@[simp] theorem failedWith_crclen (code : Byte) : (failedWith code s).crclen = 0x00#8 := rfl
@[simp] theorem failedWith_chan (code : Byte) : (failedWith code s).chan = 0x00#8 := rfl
@[simp] theorem failedWith_pcrc (code : Byte) : (failedWith code s).pcrc = 0x0000#16 := rfl
@[simp] theorem failedWith_flen (code : Byte) : (failedWith code s).flen = 0x0000#16 := rfl
@[simp] theorem failedWith_fstat (code : Byte) : (failedWith code s).fstat = code := rfl
@[simp] theorem failedWith_fb (code : Byte) : (failedWith code s).fb = [] := rfl
@[simp] theorem failedWith_pending (code : Byte) : (failedWith code s).pending = s.pending := rfl
@[simp] theorem failedWith_responses (code : Byte) : (failedWith code s).responses = s.responses ++ [[code]] := rfl
end

/-- Raising a framer error after invalidate gives the state of R120. -/
theorem raise_invalidate (s : State) :
    raise .malformedRequest (invalidate s) = failedWith 0x01#8 s ∧
    raise .unsupportedLength (invalidate s) = failedWith 0x02#8 s ∧
    raise .crcMismatch (invalidate s) = failedWith 0x03#8 s := ⟨rfl, rfl, rfl⟩

/-- The length of a frame that is held is the frame's length. -/
theorem withPacket_flen_toNat {address payload : List Byte} (crclen chan : Byte) (s : State) (ha : address.length ≤ 5)
    (hp : payload.length ≤ 32) :
    (withPacket address payload crclen chan s).flen.toNat = (frameOf address payload).length := by
  rw [frameOf_length, withPacket_flen]; simp; omega

/-! ### The invariant -/

/-- The invariant speaks of the framer's state alone. -/
theorem blockInv_congr {p : Params} {s t : State} (h : BlockInv p s) (halen : t.alen = s.alen) (hplen : t.plen = s.plen)
    (hcrclen : t.crclen = s.crclen) (hchan : t.chan = s.chan) (hpcrc : t.pcrc = s.pcrc) (hflen : t.flen = s.flen)
    (hfstat : t.fstat = s.fstat) (hfb : t.fb = s.fb) : BlockInv p t := by
  unfold BlockInv PacketHeld NoPacket packetAddress packetPayload at *
  rw [halen, hplen, hcrclen, hchan, hpcrc, hflen, hfstat, hfb]; exact h

/-- Under the invariant the frame held is inside the frame buffer. -/
theorem blockInv_flen_le {s : State} (h : BlockInv Params.esbf s) : s.flen.toNat ≤ 40 := by
  by_cases h0 : s.flen = 0x0000#16
  · rw [h0]; simp
  · obtain ⟨_, ⟨_, h2⟩, h3, _, h5, _⟩ := h.2.1 h0
    simp at h2 h3; omega

end Machine
end Sys2Proof
end

