-- ==== Sys2Proof/Laws/State.lean ====
section
/-! SUPPORT. One lemma per field and per update of the state, so that later proofs unfold no record update. -/

namespace Sys2Proof
namespace Machine

variable (s : State)

/-! ### `respond` -/

@[simp] theorem respond_crc (r : List Byte) : (respond r s).crc = s.crc := rfl
@[simp] theorem respond_alen (r : List Byte) : (respond r s).alen = s.alen := rfl
@[simp] theorem respond_plen (r : List Byte) : (respond r s).plen = s.plen := rfl
@[simp] theorem respond_crclen (r : List Byte) : (respond r s).crclen = s.crclen := rfl
@[simp] theorem respond_chan (r : List Byte) : (respond r s).chan = s.chan := rfl
@[simp] theorem respond_pcrc (r : List Byte) : (respond r s).pcrc = s.pcrc := rfl
@[simp] theorem respond_flen (r : List Byte) : (respond r s).flen = s.flen := rfl
@[simp] theorem respond_fstat (r : List Byte) : (respond r s).fstat = s.fstat := rfl
@[simp] theorem respond_fb (r : List Byte) : (respond r s).fb = s.fb := rfl
@[simp] theorem respond_pending (r : List Byte) : (respond r s).pending = s.pending := rfl
@[simp] theorem respond_responses (r : List Byte) : (respond r s).responses = s.responses ++ [r] := rfl

/-! ### `invalidate` -/

@[simp] theorem invalidate_crc : (invalidate s).crc = s.crc := rfl
@[simp] theorem invalidate_alen : (invalidate s).alen = 0x00#8 := rfl
@[simp] theorem invalidate_plen : (invalidate s).plen = 0x00#8 := rfl
@[simp] theorem invalidate_crclen : (invalidate s).crclen = 0x00#8 := rfl
@[simp] theorem invalidate_chan : (invalidate s).chan = 0x00#8 := rfl
@[simp] theorem invalidate_pcrc : (invalidate s).pcrc = 0x0000#16 := rfl
@[simp] theorem invalidate_flen : (invalidate s).flen = 0x0000#16 := rfl
@[simp] theorem invalidate_fstat : (invalidate s).fstat = s.fstat := rfl
@[simp] theorem invalidate_fb : (invalidate s).fb = [] := rfl
@[simp] theorem invalidate_pending : (invalidate s).pending = s.pending := rfl
@[simp] theorem invalidate_responses : (invalidate s).responses = s.responses := rfl

/-! ### `applyReset` -/

@[simp] theorem applyReset_crc : (applyReset s).crc = 0xFFFF#16 := rfl
@[simp] theorem applyReset_alen : (applyReset s).alen = 0x00#8 := rfl
@[simp] theorem applyReset_plen : (applyReset s).plen = 0x00#8 := rfl
@[simp] theorem applyReset_crclen : (applyReset s).crclen = 0x00#8 := rfl
@[simp] theorem applyReset_chan : (applyReset s).chan = 0x00#8 := rfl
@[simp] theorem applyReset_pcrc : (applyReset s).pcrc = 0x0000#16 := rfl
@[simp] theorem applyReset_flen : (applyReset s).flen = 0x0000#16 := rfl
@[simp] theorem applyReset_fstat : (applyReset s).fstat = 0x00#8 := rfl
@[simp] theorem applyReset_fb : (applyReset s).fb = [] := rfl
@[simp] theorem applyReset_pending : (applyReset s).pending = s.pending := rfl
@[simp] theorem applyReset_responses : (applyReset s).responses = s.responses := rfl

/-! ### `takeEvent` -/

@[simp] theorem takeEvent_crc (rest : List HostEvent) : (takeEvent rest s).crc = s.crc := rfl
@[simp] theorem takeEvent_alen (rest : List HostEvent) : (takeEvent rest s).alen = s.alen := rfl
@[simp] theorem takeEvent_plen (rest : List HostEvent) : (takeEvent rest s).plen = s.plen := rfl
@[simp] theorem takeEvent_crclen (rest : List HostEvent) : (takeEvent rest s).crclen = s.crclen := rfl
@[simp] theorem takeEvent_chan (rest : List HostEvent) : (takeEvent rest s).chan = s.chan := rfl
@[simp] theorem takeEvent_pcrc (rest : List HostEvent) : (takeEvent rest s).pcrc = s.pcrc := rfl
@[simp] theorem takeEvent_flen (rest : List HostEvent) : (takeEvent rest s).flen = s.flen := rfl
@[simp] theorem takeEvent_fstat (rest : List HostEvent) : (takeEvent rest s).fstat = s.fstat := rfl
@[simp] theorem takeEvent_fb (rest : List HostEvent) : (takeEvent rest s).fb = s.fb := rfl
@[simp] theorem takeEvent_pending (rest : List HostEvent) : (takeEvent rest s).pending = rest := rfl
@[simp] theorem takeEvent_responses (rest : List HostEvent) : (takeEvent rest s).responses = s.responses := rfl

/-! ### `issue` -/

@[simp] theorem issue_crc (e : HostEvent) : (issue e s).crc = s.crc := rfl
@[simp] theorem issue_alen (e : HostEvent) : (issue e s).alen = s.alen := rfl
@[simp] theorem issue_plen (e : HostEvent) : (issue e s).plen = s.plen := rfl
@[simp] theorem issue_crclen (e : HostEvent) : (issue e s).crclen = s.crclen := rfl
@[simp] theorem issue_chan (e : HostEvent) : (issue e s).chan = s.chan := rfl
@[simp] theorem issue_pcrc (e : HostEvent) : (issue e s).pcrc = s.pcrc := rfl
@[simp] theorem issue_flen (e : HostEvent) : (issue e s).flen = s.flen := rfl
@[simp] theorem issue_fstat (e : HostEvent) : (issue e s).fstat = s.fstat := rfl
@[simp] theorem issue_fb (e : HostEvent) : (issue e s).fb = s.fb := rfl
@[simp] theorem issue_pending (e : HostEvent) : (issue e s).pending = s.pending ++ [e] := rfl
@[simp] theorem issue_responses (e : HostEvent) : (issue e s).responses = s.responses := rfl

/-! ### `respondCrc` -/

@[simp] theorem respondCrc_crc : (respondCrc s).crc = s.crc := rfl
@[simp] theorem respondCrc_alen : (respondCrc s).alen = s.alen := rfl
@[simp] theorem respondCrc_plen : (respondCrc s).plen = s.plen := rfl
@[simp] theorem respondCrc_crclen : (respondCrc s).crclen = s.crclen := rfl
@[simp] theorem respondCrc_chan : (respondCrc s).chan = s.chan := rfl
@[simp] theorem respondCrc_pcrc : (respondCrc s).pcrc = s.pcrc := rfl
@[simp] theorem respondCrc_flen : (respondCrc s).flen = s.flen := rfl
@[simp] theorem respondCrc_fstat : (respondCrc s).fstat = s.fstat := rfl
@[simp] theorem respondCrc_fb : (respondCrc s).fb = s.fb := rfl
@[simp] theorem respondCrc_pending : (respondCrc s).pending = s.pending := rfl
@[simp] theorem respondCrc_responses : (respondCrc s).responses = s.responses ++ [[statusOk, hi8 s.crc, lo8 s.crc]] := rfl

/-! ### `loadCrc` -/

@[simp] theorem loadCrc_crc (v : Half) : (loadCrc v s).crc = v := rfl
@[simp] theorem loadCrc_alen (v : Half) : (loadCrc v s).alen = s.alen := rfl
@[simp] theorem loadCrc_plen (v : Half) : (loadCrc v s).plen = s.plen := rfl
@[simp] theorem loadCrc_crclen (v : Half) : (loadCrc v s).crclen = s.crclen := rfl
@[simp] theorem loadCrc_chan (v : Half) : (loadCrc v s).chan = s.chan := rfl
@[simp] theorem loadCrc_pcrc (v : Half) : (loadCrc v s).pcrc = s.pcrc := rfl
@[simp] theorem loadCrc_flen (v : Half) : (loadCrc v s).flen = s.flen := rfl
@[simp] theorem loadCrc_fstat (v : Half) : (loadCrc v s).fstat = s.fstat := rfl
@[simp] theorem loadCrc_fb (v : Half) : (loadCrc v s).fb = s.fb := rfl
@[simp] theorem loadCrc_pending (v : Half) : (loadCrc v s).pending = s.pending := rfl
@[simp] theorem loadCrc_responses (v : Half) : (loadCrc v s).responses = s.responses ++ [[statusOk, hi8 v, lo8 v]] := rfl

/-! ### `raise` -/

@[simp] theorem raise_crc (e : ErrorKind) : (raise e s).crc = s.crc := by cases e <;> rfl
@[simp] theorem raise_alen (e : ErrorKind) : (raise e s).alen = s.alen := by cases e <;> rfl
@[simp] theorem raise_plen (e : ErrorKind) : (raise e s).plen = s.plen := by cases e <;> rfl
@[simp] theorem raise_crclen (e : ErrorKind) : (raise e s).crclen = s.crclen := by cases e <;> rfl
@[simp] theorem raise_chan (e : ErrorKind) : (raise e s).chan = s.chan := by cases e <;> rfl
@[simp] theorem raise_pcrc (e : ErrorKind) : (raise e s).pcrc = s.pcrc := by cases e <;> rfl
@[simp] theorem raise_flen (e : ErrorKind) : (raise e s).flen = s.flen := by cases e <;> rfl
@[simp] theorem raise_fb (e : ErrorKind) : (raise e s).fb = s.fb := by cases e <;> rfl
@[simp] theorem raise_pending (e : ErrorKind) : (raise e s).pending = s.pending := by cases e <;> rfl

@[simp] theorem raise_responses (e : ErrorKind) : (raise e s).responses = s.responses ++ [[errorCode e]] := by cases e <;> rfl

/-- A framer error writes its code to `FSTAT` (R120). -/
theorem raise_fstat {e : ErrorKind} (h : e ≠ .illegalCommand) : (raise e s).fstat = errorCode e := by
  cases e <;> first | rfl | exact absurd rfl h

/-- An illegal command does not write `FSTAT` (R121). -/
@[simp] theorem raise_illegal_fstat : (raise .illegalCommand s).fstat = s.fstat := rfl

/-! ### `State.reset` -/

@[simp] theorem reset_crc : State.reset.crc = 0xFFFF#16 := rfl
@[simp] theorem reset_alen : State.reset.alen = 0x00#8 := rfl
@[simp] theorem reset_plen : State.reset.plen = 0x00#8 := rfl
@[simp] theorem reset_crclen : State.reset.crclen = 0x00#8 := rfl
@[simp] theorem reset_chan : State.reset.chan = 0x00#8 := rfl
@[simp] theorem reset_pcrc : State.reset.pcrc = 0x0000#16 := rfl
@[simp] theorem reset_flen : State.reset.flen = 0x0000#16 := rfl
@[simp] theorem reset_fstat : State.reset.fstat = 0x00#8 := rfl
@[simp] theorem reset_fb : State.reset.fb = [] := rfl
@[simp] theorem reset_pending : State.reset.pending = [] := rfl
@[simp] theorem reset_responses : State.reset.responses = [] := rfl

/-- The state a framer error leaves, field by field, is `raise` after `invalidate`. -/
theorem raise_invalidate_eq (e : ErrorKind) (h : e ≠ .illegalCommand) :
    raise e (invalidate s) =
      { s with alen := 0x00#8, plen := 0x00#8, crclen := 0x00#8, chan := 0x00#8, pcrc := 0x0000#16, flen := 0x0000#16,
               fstat := errorCode e, fb := [], responses := s.responses ++ [[errorCode e]] } := by
  cases e <;> first | rfl | exact absurd rfl h

/-- Two states with the same fields are the same state. -/
theorem State.ext_fields {a b : State} (h1 : a.crc = b.crc) (h2 : a.alen = b.alen) (h3 : a.plen = b.plen)
    (h4 : a.crclen = b.crclen) (h5 : a.chan = b.chan) (h6 : a.pcrc = b.pcrc) (h7 : a.flen = b.flen) (h8 : a.fstat = b.fstat)
    (h9 : a.fb = b.fb) (h10 : a.pending = b.pending) (h11 : a.responses = b.responses) : a = b := by
  cases a; cases b; simp_all

end Machine
end Sys2Proof
end

