-- ==== Sys2Proof/Laws/Step.lean ====
section
/-! SUPPORT. What a step, the port and the dispatch can do. -/

namespace Sys2Proof
namespace Machine

/-- The three kinds of step: waiting, reset, a command. -/
theorem step_cases (s : State) :
    (s.pending = [] ∧ step s = .next s) ∨
    (∃ rest, s.pending = .reset :: rest ∧ step s = .next (applyReset (takeEvent rest s))) ∨
    (∃ opcode operands rest, s.pending = .command opcode operands :: rest ∧
      step s = runCommand (opcode :: operands) (takeEvent rest s)) := by
  unfold step runNext
  match s.pending with
  | [] => exact .inl ⟨rfl, rfl⟩
  | .reset :: rest => exact .inr (.inl ⟨rest, rfl, rfl⟩)
  | .command opcode operands :: rest => exact .inr (.inr ⟨opcode, operands, rest, rfl, rfl⟩)

/-- A delivered command string is an instruction that is executed, or illegal and answered so. -/
theorem runCommand_cases (cmd : List Byte) (s : State) :
    (∃ i, decode cmd = .ok i ∧ runCommand cmd s = exec i s) ∨
    (∃ e, decode cmd = .error e ∧ runCommand cmd s = .next (raise .illegalCommand s)) := by
  unfold runCommand
  cases h : decode cmd with
  | ok i => exact .inl ⟨i, rfl, rfl⟩
  | error e => exact .inr ⟨e, rfl, rfl⟩

theorem step_idle {s : State} (h : s.pending = []) : step s = .next s := by
  simp [step, runNext, h]

theorem step_command {s : State} {opcode : Byte} {operands : List Byte} {rest : List HostEvent}
    (h : s.pending = .command opcode operands :: rest) : step s = runCommand (opcode :: operands) (takeEvent rest s) := by
  simp [step, runNext, runEvent, h]

theorem step_reset {s : State} {rest : List HostEvent} (h : s.pending = .reset :: rest) :
    step s = .next (applyReset (takeEvent rest s)) := by
  simp [step, runNext, runEvent, h]

/-! ### Runs -/

/-- A run of one step more, when the first step goes on. -/
theorem run_succ {n : Nat} {s t : State} (h : step s = .next t) :
    Host.Core.run Sys2Proof.core (n + 1) s = Host.Core.run Sys2Proof.core n t := by
  have hc : Sys2Proof.core.step s = .next t := h
  simp only [Host.Core.run]
  rw [hc]

/-- A run in two parts. -/
theorem run_add {m n : Nat} {s t : State} (h : Host.Core.run Sys2Proof.core m s = .next t) :
    Host.Core.run Sys2Proof.core (m + n) s = Host.Core.run Sys2Proof.core n t := by
  induction m generalizing s with
  | zero => injection h with h; subst h; rw [Nat.zero_add]
  | succ m ih =>
    rw [Nat.succ_add]
    have hc : Sys2Proof.core.step s = step s := rfl
    cases hs : step s with
    | next u => rw [run_succ hs] at h ⊢; exact ih h
    | fault r => simp only [Host.Core.run, hc] at h; rw [hs] at h; cases h
    | refused r => simp only [Host.Core.run, hc] at h; rw [hs] at h; cases h

/-! ### The dispatch, one equation per command -/

@[simp] theorem exec_crcInit (s : State) : exec .crcInit s = .next (loadCrc crcInit s) := rfl
@[simp] theorem exec_crcLoad (hi lo : Byte) (s : State) : exec (.crcLoad hi lo) s = .next (loadCrc (be16 hi lo) s) := rfl
@[simp] theorem exec_crcUpdb (d : Byte) (s : State) : exec (.crcUpdb d) s = .next (loadCrc (crcUpdate s.crc d 0x08#8) s) := rfl
@[simp] theorem exec_crcUpdn (d k : Byte) (s : State) : exec (.crcUpdn d k) s = .next (loadCrc (crcUpdate s.crc d k) s) := rfl
@[simp] theorem exec_crcRead (s : State) : exec .crcRead s = .next (respondCrc s) := rfl
@[simp] theorem exec_frmBuild (blob : List Byte) (s : State) : exec (.frmBuild blob) s = outcomeOf (build Params.esbf blob s) := rfl
@[simp] theorem exec_frmCheck (alen crclen : Byte) (raw : List Byte) (s : State) :
    exec (.frmCheck alen crclen raw) s = outcomeOf (check Params.esbf alen crclen raw s) := rfl
@[simp] theorem exec_frmRead (s : State) : exec .frmRead s = outcomeOf (readFrame Params.esbf s) := rfl
@[simp] theorem exec_frmInfo (s : State) : exec .frmInfo s = .next (respond (infoBytes s) s) := rfl

end Machine
end Sys2Proof
end

