-- ==== Sys2Proof/Tests/Slice0.lean ====
section
/-! SUPPORT. Small tests of the model, each about one step or one decoding, and for every statement with hypotheses a witness that
meets them. Expected values are those of spec/95_test_vectors.md (the vector is named) or are worked from the rule that is named. -/

namespace Sys2Proof
namespace Machine
namespace Tests

/-! ### Helpers -/

/-- The next state, where there is one. -/
def nextOf (o : Host.Outcome State Fault Refusal) : Option State :=
  match o with
  | .next t => some t
  | .fault _ => none
  | .refused _ => none

theorem nextOf_eq {o : Host.Outcome State Fault Refusal} {t : State} (h : nextOf o = some t) : o = .next t := by
  cases o with
  | next u => injection h with h; rw [h]
  | fault r => cases h
  | refused r => cases h

/-- A next state with a property that can be checked. -/
theorem next_with {o : Host.Outcome State Fault Refusal} (P : State → Bool) (h : (nextOf o).any P = true) :
    ∃ t, o = .next t ∧ P t = true := by
  cases o with
  | next u => exact ⟨u, rfl, h⟩
  | fault r => cases h
  | refused r => cases h

/-- The state in which a command string is the one pending event. -/
def waiting (s : State) (cmd : List Byte) : State := deliverNext cmd { s with pending := [] }

/-- The state after one step on a command string. -/
def after (s : State) (cmd : List Byte) : Option State := nextOf (step (waiting s cmd))

/-- The response of one step on a command string. -/
def answer (s : State) (cmd : List Byte) : Option (List Byte) := (after s cmd).bind (fun t => t.responses.getLast?)

/-- The state after reset with a value in `CRC`. -/
def withCrc (c : Half) : State := { State.reset with crc := c }

/-- The command of V1. -/
def v1 : List Byte := [0x10#8, 0x02#8, 0x05#8, 0x04#8, 0x00#8, 0x00#8, 0x02#8, 0xE7#8, 0xE7#8, 0xE7#8, 0xE7#8, 0xE7#8, 0xDE#8,
    0xAD#8, 0xBE#8, 0xEF#8]

/-- The command of V2. -/
def v2 : List Byte := [0x10#8, 0x00#8, 0x05#8, 0x0B#8, 0x00#8, 0x00#8, 0x02#8, 0x12#8, 0x34#8, 0x56#8, 0x78#8, 0x9A#8, 0x48#8,
    0x45#8, 0x4C#8, 0x4C#8, 0x4F#8, 0x20#8, 0x57#8, 0x4F#8, 0x52#8, 0x4C#8, 0x44#8]

/-- The frame of V2. -/
def v2Frame : List Byte := [0x55#8, 0x12#8, 0x34#8, 0x56#8, 0x78#8, 0x9A#8, 0x48#8, 0x45#8, 0x4C#8, 0x4C#8, 0x4F#8, 0x20#8,
    0x57#8, 0x4F#8, 0x52#8, 0x4C#8, 0x44#8, 0x89#8, 0xAD#8]

/-- The address of V2. -/
def v2Address : List Byte := [0x12#8, 0x34#8, 0x56#8, 0x78#8, 0x9A#8]

/-- The payload of V2. -/
def v2Payload : List Byte := [0x48#8, 0x45#8, 0x4C#8, 0x4C#8, 0x4F#8, 0x20#8, 0x57#8, 0x4F#8, 0x52#8, 0x4C#8, 0x44#8]

/-- The command of V5, the largest frame. -/
def v5 : List Byte :=
  [0x10#8, 0x00#8, 0x05#8, 0x20#8, 0x00#8, 0x00#8, 0x02#8, 0xC2#8, 0xC2#8, 0xC2#8, 0xC2#8, 0xC2#8] ++
    (List.range 32).map (BitVec.ofNat 8)

/-- The state after V1 from reset. -/
def afterV1 : State := (after State.reset v1).getD State.reset

/-- The state after V5 from reset. -/
def afterV5 : State := (after State.reset v5).getD State.reset

/-! ### Ill-formed terms are refused -/

/-- R6: `1 ≤ ALEN_MIN`. -/
theorem test_params_alenMin_zero_refused : ({ Params.esbf with alenMin := 0 } : Params).wf = false := by decide

/-- R6: `ALEN_MIN ≤ ALEN_MAX`. -/
theorem test_params_alenMin_above_max_refused : ({ Params.esbf with alenMin := 6 } : Params).wf = false := by decide

/-- R6: `ALEN_MAX ≤ 255`. -/
theorem test_params_alenMax_refused : ({ Params.esbf with alenMax := 256 } : Params).wf = false := by decide

/-- R6: `PLEN_MAX ≥ 11`. -/
theorem test_params_plenMax_small_refused : ({ Params.esbf with plenMax := 10 } : Params).wf = false := by decide

/-- R6: `PLEN_MAX ≤ 255`. -/
theorem test_params_plenMax_large_refused : ({ Params.esbf with plenMax := 256 } : Params).wf = false := by decide

/-- R4, R55: the empty string is no command. -/
theorem test_empty_command_refused : commandWf [] = false := by decide

/-- A memory entry that holds what an unlisted offset reads as is not canonical; nor are entries out of order or outside `FB`. -/
theorem test_memory_forms_refused :
    Memory.wf Params.esbf [(3, 0x00#8)] = false ∧ Memory.wf Params.esbf [(3, 0x01#8), (2, 0x01#8)] = false ∧
    Memory.wf Params.esbf [(40, 0x01#8)] = false := by decide

/-! ### Decoding, word by word from R50 and R45 -/

theorem test_decode_crcInit : decode [0x01#8] = .ok .crcInit := by decide

theorem test_decode_crcLoad : decode [0x02#8, 0x1D#8, 0x0F#8] = .ok (.crcLoad 0x1D#8 0x0F#8) := by decide

theorem test_decode_crcUpdb : decode [0x03#8, 0x31#8] = .ok (.crcUpdb 0x31#8) := by decide

theorem test_decode_crcUpdn : decode [0x04#8, 0x80#8, 0x01#8] = .ok (.crcUpdn 0x80#8 0x01#8) := by decide

theorem test_decode_crcRead : decode [0x05#8] = .ok .crcRead := by decide

theorem test_decode_frmBuild : decode [0x10#8, 0x09#8, 0x01#8] = .ok (.frmBuild [0x09#8, 0x01#8]) := by decide

theorem test_decode_frmCheck : decode [0x11#8, 0x05#8, 0x02#8, 0x55#8, 0x12#8] = .ok (.frmCheck 0x05#8 0x02#8 [0x55#8, 0x12#8])
    := by decide

theorem test_decode_frmRead : decode [0x12#8] = .ok .frmRead := by decide

theorem test_decode_frmInfo : decode [0x13#8] = .ok .frmInfo := by decide

/-- R51: `00` and `14` are reserved opcodes; R52: `03` alone and `11 05` have a wrong length. -/
theorem test_decode_illegal :
    decode [0x00#8] = .error (.reservedOpcode 0x00#8) ∧ decode [0x14#8, 0x01#8] = .error (.reservedOpcode 0x14#8) ∧
    decode [0x03#8] = .error (.wrongLength 0x03#8 1) ∧ decode [0x11#8, 0x05#8] = .error (.wrongLength 0x11#8 2) := by decide

/-- Table words: byte 0 is bits 7 to 0; operands that the word does not give are zero. -/
theorem test_table_words :
    decodeTableWord 8 0x01 = some .crcInit ∧ decodeTableWord 24 0x0F1D02 = some (.crcLoad 0x1D#8 0x0F#8) ∧
    decodeTableWord 8 0x11 = some (.frmCheck 0x00#8 0x00#8 []) ∧ decodeTableWord 8 0x06 = none := by decide

/-- A table word placed as the next event is what the next step runs. -/
theorem test_withFetchWord :
    (nextOf (step (State.reset.withFetchWord 16 0x3103))).map (fun t => t.crc) = some 0xC782#16 := by decide +kernel

/-! ### The commands, one step each -/

/-- Section 2.6, row 1. -/
theorem test_crcInit : answer (withCrc 0x1234#16) [0x01#8] = some [0x00#8, 0xFF#8, 0xFF#8] := by decide

/-- Section 2.6, row 2. -/
theorem test_crcLoad : (after State.reset [0x02#8, 0x1D#8, 0x0F#8]).map (fun t => t.crc) = some 0x1D0F#16 := by decide

/-- Section 2.2: the last row, and `0x1234`, `0xA5`. -/
theorem test_crcUpdb :
    answer (withCrc 0x29B1#16) [0x03#8, 0x29#8] = some [0x00#8, 0xB1#8, 0x00#8] ∧
    answer (withCrc 0x1234#16) [0x03#8, 0xA5#8] = some [0x00#8, 0xE3#8, 0x3C#8] := by decide +kernel

/-- Section 2.4: `0xFFFF`, `0x31`, 255, and the unmasked one-bit update of `0x1234`. -/
theorem test_crcUpdn :
    answer (withCrc 0xFFFF#16) [0x04#8, 0x31#8, 0xFF#8] = some [0x00#8, 0x7A#8, 0xB2#8] ∧
    answer (withCrc 0x1234#16) [0x04#8, 0xFF#8, 0x01#8] = some [0x00#8, 0xCA#8, 0x49#8] := by decide +kernel

/-- Section 2.4: the two ends of the count, 0 and 9. -/
theorem test_crcUpdn_counts :
    crcUpdate 0x1234#16 0xAB#8 0x00#8 = 0xB934#16 ∧ crcUpdate 0xFFFF#16 0x31#8 0x09#8 = 0x9F25#16 := by decide +kernel

/-- Section 2.6, row 5. -/
theorem test_crcRead : answer (withCrc 0x29B1#16) [0x05#8] = some [0x00#8, 0x29#8, 0xB1#8] := by decide

/-- V1. -/
theorem test_frmBuild : answer State.reset v1 =
    some [0x00#8, 0xAA#8, 0xE7#8, 0xE7#8, 0xE7#8, 0xE7#8, 0xE7#8, 0xDE#8, 0xAD#8, 0xBE#8, 0xEF#8, 0x16#8, 0x5D#8] := by decide +kernel

/-- E2: a declared payload of 200 bytes with 56 blob bytes present (property S8); and E6, `crclen = 0`. -/
theorem test_frmBuild_errors :
    answer afterV1 ([0x10#8, 0x00#8, 0x05#8, 0xC8#8, 0x00#8, 0x00#8, 0x02#8] ++ List.replicate 50 0x00#8) = some [0x01#8] ∧
    answer afterV1 [0x10#8, 0x00#8, 0x01#8, 0x00#8, 0x00#8, 0x00#8, 0x00#8, 0x80#8] = some [0x02#8] := by decide +kernel

/-- K3: a wrong preamble is not checked, and the computed one is returned. -/
theorem test_frmCheck :
    answer State.reset (0x11#8 :: 0x05#8 :: 0x02#8 :: 0xAA#8 :: v2Frame.tail) = some (0x00#8 :: v2Frame) := by decide +kernel

/-- K5: bit 7 of the CRC high byte is compared. -/
theorem test_frmCheck_mismatch :
    answer State.reset (0x11#8 :: 0x05#8 :: 0x02#8 :: (v2Frame.take 17 ++ [0x09#8, 0xAD#8])) = some [0x03#8] := by decide +kernel

/-- Section 3.4: `FRM.READ` after reset, and after V1. -/
theorem test_frmRead :
    answer State.reset [0x12#8] = some [0x00#8] ∧
    answer afterV1 [0x12#8] =
      some [0x00#8, 0xAA#8, 0xE7#8, 0xE7#8, 0xE7#8, 0xE7#8, 0xE7#8, 0xDE#8, 0xAD#8, 0xBE#8, 0xEF#8, 0x16#8, 0x5D#8] := by
  decide +kernel

/-- Section 3.4: `FRM.INFO` after V5. -/
theorem test_frmInfo :
    answer afterV5 [0x13#8] = some [0x00#8, 0x00#8, 0x05#8, 0x20#8, 0x02#8, 0x00#8, 0x68#8, 0x27#8, 0x00#8, 0x28#8] := by
  decide +kernel

/-- Section 3.5: an illegal command answers `04` and leaves the packet of V1 held. -/
theorem test_illegal_changes_nothing :
    (after afterV1 [0x13#8, 0x13#8]).map (fun t => { t with responses := [] }) = some { afterV1 with responses := [] } ∧
    answer afterV1 [0x13#8, 0x13#8] = some [0x04#8] := by decide +kernel

/-- R135: reset as an event. -/
theorem test_reset_event :
    nextOf (step { afterV1 with crc := 0x1234#16, pending := [.reset], responses := [] }) = some State.reset := by decide +kernel

/-! ### The notation (R57, R58) -/

/-- R57's own example. -/
theorem test_notation_example : assembleLine "CRC.UPDN 0x80, 0x01".toList = some [.crcUpdn 0x80#8 0x01#8] := by decide +kernel

/-- R58: `CRC.BIT 1` is `CRC.UPDN 0x80, 0x01`; a comment is dropped; an empty line is no command. -/
theorem test_notation_bit :
    assembleLine "CRC.BIT 1 ; one message bit".toList = some [.crcUpdn 0x80#8 0x01#8] ∧ assembleLine [] = some [] := by
  decide +kernel

/-- Ill-formed lines: an unknown name, a missing operand, a 16-bit value for a byte, a digit that is none. -/
theorem test_notation_refused :
    assembleLine "CRC.XOR 0x01".toList = none ∧ assembleLine "CRC.UPDB".toList = none ∧
    assembleLine "CRC.UPDB 0x0102".toList = none ∧ assembleLine "CRC.UPDB 0x0G".toList = none := by decide +kernel

/-! ### Witnesses: the hypotheses of every statement can be met, for each clause at the ends of its range -/

/-- Both cases of R66's test of the top bit, at their boundary. -/
theorem test_witness_CrcUpdateIsIteratedStep :
    (crcStep 0x7FFF#16).toNat = 2 * 0x7FFF ∧ (crcStep 0x8000#16).toNat = 0x1021 := by decide

theorem test_witness_CrcUpdateBitCounts : 8 + 0 ≤ 255 ∧ 8 + 247 ≤ 255 := by decide

theorem test_witness_CrcSubByteUpdate : 0 < 8 ∧ 7 < 8 ∧ topBits 0xFF#8 7 = 0xFE#8 ∧ lowBits 0xFF#8 7 = 0x01#8 := by decide

theorem test_witness_CrcByteUpdateComposition : 0 ≤ 8 ∧ 8 ≤ 8 ∧ topBits 0xFF#8 8 = 0xFF#8 := by decide

theorem test_witness_ZeroByteUpdateFixedPoints :
    crcUpdate 0xF01F#16 0x00#8 0x08#8 = 0xF01F#16 ∧ crcUpdate 0xF01E#16 0x00#8 0x08#8 ≠ 0xF01E#16 := by decide

/-- A delivered command of each CRC opcode with its well-formed length. -/
theorem test_witness_Delivers_crc :
    Delivers (waiting State.reset [0x01#8]) 0x01#8 [] [] ∧
    Delivers (waiting State.reset [0x02#8, 0x1D#8, 0x0F#8]) 0x02#8 [0x1D#8, 0x0F#8] [] ∧
    Delivers (waiting State.reset [0x03#8, 0x31#8]) 0x03#8 [0x31#8] [] ∧
    Delivers (waiting State.reset [0x04#8, 0x80#8, 0x01#8]) 0x04#8 [0x80#8, 0x01#8] [] ∧
    Delivers (waiting State.reset [0x05#8]) 0x05#8 [] [] := ⟨rfl, rfl, rfl, rfl, rfl⟩

theorem test_witness_CrcInitCommand :
    ([0x00#8] : List Byte) ≠ [] ∧ Delivers (waiting State.reset [0x01#8, 0x00#8]) 0x01#8 [0x00#8] [] :=
  ⟨by decide, rfl⟩

theorem test_witness_CrcLoadCommand :
    ([0x00#8] : List Byte).length ≠ 2 ∧ ([0x00#8, 0x00#8, 0x00#8] : List Byte).length ≠ 2 ∧
    Delivers (waiting State.reset [0x02#8, 0x00#8]) 0x02#8 [0x00#8] [] := ⟨by decide, by decide, rfl⟩

theorem test_witness_CrcUpdbCommand :
    ([] : List Byte).length ≠ 1 ∧ ([0x00#8, 0x00#8] : List Byte).length ≠ 1 ∧
    Delivers (waiting State.reset [0x03#8]) 0x03#8 [] [] := ⟨by decide, by decide, rfl⟩

theorem test_witness_CrcUpdnCommand :
    (0x00#8 : Byte).toNat < 8 ∧ (0x07#8 : Byte).toNat < 8 ∧ 8 < (0x09#8 : Byte).toNat ∧ 8 < (0xFF#8 : Byte).toNat ∧
    ([0x80#8] : List Byte).length ≠ 2 ∧ Delivers (waiting State.reset [0x04#8, 0x80#8]) 0x04#8 [0x80#8] [] :=
  ⟨by decide, by decide, by decide, by decide, by decide, rfl⟩

theorem test_witness_CrcReadCommand :
    ([0x00#8] : List Byte) ≠ [] ∧ Delivers (waiting State.reset [0x05#8, 0x00#8]) 0x05#8 [0x00#8] [] :=
  ⟨by decide, rfl⟩

/-- The two ends of the frame buffer. -/
theorem test_witness_InvalidateBeginsFramerCommands :
    0 < 40 ∧ 39 < 40 ∧ fbGet afterV5.fb 0 = 0xAA#8 ∧ fbGet afterV5.fb 39 = 0x27#8 ∧ fbGet (invalidate afterV5).fb 39 = 0x00#8 := by
  decide +kernel

/-- An empty blob, a blob of 5 bytes; a blob one byte short of what it declares, and one that is not. -/
theorem test_witness_BuildMalformedRequest :
    ([] : List Byte).length < 6 ∧ (List.replicate 5 0x00#8).length < 6 ∧
    (List.replicate 8 0x00#8).length < (0x05#8 : Byte).toNat + (0x04#8 : Byte).toNat ∧
    (0x05#8 : Byte).toNat + (0x04#8 : Byte).toNat ≤ (List.replicate 9 0x00#8).length := by decide

/-- E9, E4, E5, E6, E7: `alen` 0 and 6, `plen` 33, `crclen` 0 and 3, each with the bytes it declares; the ends of the supported
ranges. -/
theorem test_witness_BuildUnsupportedLength :
    ((0x00#8 : Byte).toNat + (0x00#8 : Byte).toNat ≤ ([] : List Byte).length ∧ (0x00#8 : Byte).toNat < 1) ∧
    ((0x06#8 : Byte).toNat + (0x00#8 : Byte).toNat ≤ (List.replicate 6 0x00#8).length ∧ 5 < (0x06#8 : Byte).toNat) ∧
    ((0x05#8 : Byte).toNat + (0x21#8 : Byte).toNat ≤ (List.replicate 38 0x00#8).length ∧ 32 < (0x21#8 : Byte).toNat) ∧
    ((0x01#8 : Byte).toNat + (0x00#8 : Byte).toNat ≤ [0x80#8].length ∧ (0x00#8 : Byte).toNat ≠ 1 ∧ (0x00#8 : Byte).toNat ≠ 2) ∧
    ((0x03#8 : Byte).toNat ≠ 1 ∧ (0x03#8 : Byte).toNat ≠ 2) ∧
    (1 ≤ (0x01#8 : Byte).toNat ∧ (0x05#8 : Byte).toNat ≤ 5 ∧ (0x20#8 : Byte).toNat ≤ 32 ∧ (0x01#8 : Byte).toNat = 1 ∧
      (0x02#8 : Byte).toNat = 2 ∧ (0x05#8 : Byte).toNat + (0x20#8 : Byte).toNat ≤ (List.replicate 37 0x00#8).length) := by decide

/-- The smallest frame (V9) and the largest (V5). -/
theorem test_witness_BuildAssemblesFrame :
    (1 ≤ [0x00#8].length ∧ [0x00#8].length ≤ 5 ∧ ([] : List Byte).length ≤ 32 ∧ (0x01#8 : Byte) = 0x01#8) ∧
    (1 ≤ (List.replicate 5 0xC2#8).length ∧ (List.replicate 5 0xC2#8).length ≤ 5 ∧
      ((List.range 32).map (BitVec.ofNat 8)).length ≤ 32 ∧ (0x02#8 : Byte) = 0x02#8) := by decide

/-- V10, and E7 for the refused values. -/
theorem test_witness_CrclenDoesNotChangeFrame :
    (∃ t, exec (.frmBuild (0x02#8 :: 0x05#8 :: 0x04#8 :: 0x00#8 :: 0x00#8 :: 0x01#8 :: v1.drop 7)) State.reset = .next t ∧
      (t.flen != 0x0000#16) = true) ∧
    ((0x03#8 : Byte) ≠ 0x01#8 ∧ (0x03#8 : Byte) ≠ 0x02#8 ∧ (0x01#8 : Byte).toNat + (0x00#8 : Byte).toNat ≤ [0x80#8].length) :=
  ⟨next_with _ (by decide +kernel), by decide⟩

theorem test_witness_ReservedAndExcessBytesIgnored :
    (0x01#8 : Byte).toNat + (0x01#8 : Byte).toNat ≤ [0x7F#8, 0x00#8].length ∧
    1 + (0x05#8 : Byte).toNat + 13 ≤ v2Frame.length := by decide

/-- Two states that differ in the packet they hold. -/
theorem test_witness_FramerCommandsForgetEarlierPacket :
    { afterV1 with responses := [] }.crc = State.reset.crc ∧ { afterV1 with responses := [] }.pending = State.reset.pending ∧
    { afterV1 with responses := [] }.responses = State.reset.responses ∧ afterV1.flen ≠ State.reset.flen := by decide +kernel

theorem test_witness_PacketFieldsOfHeldFrame :
    1 ≤ v2Address.length ∧ v2Address.length ≤ 5 ∧ v2Payload.length ≤ 32 ∧
    (∃ t, exec (.frmBuild (0x00#8 :: BitVec.ofNat 8 v2Address.length :: BitVec.ofNat 8 v2Payload.length :: 0x00#8 :: 0x00#8 ::
      0x02#8 :: (v2Address ++ (v2Payload ++ [])))) State.reset = .next t ∧ (t.flen == 19#16) = true) ∧
    v2Address.length = (0x05#8 : Byte).toNat ∧ v2Payload.length = 11 ∧
    (∃ t, exec (.frmCheck 0x05#8 0x02#8 (0x55#8 :: (v2Address ++ (v2Payload ++ [0x89#8, 0xAD#8])))) State.reset = .next t ∧
      (t.fstat == 0x00#8) = true) :=
  ⟨by decide, by decide, by decide, next_with _ (by decide +kernel), by decide, by decide, next_with _ (by decide +kernel)⟩

/-- 14 and 19 bytes needed, fewer present; `alen = 6` too (K10); and 19 present. -/
theorem test_witness_CheckMalformedRequest :
    ([] : List Byte).length < 1 + (0x00#8 : Byte).toNat + 11 + 2 ∧
    (v2Frame.take 18).length < 1 + (0x05#8 : Byte).toNat + 11 + 2 ∧ v2Frame.length < 1 + (0x06#8 : Byte).toNat + 11 + 2 ∧
    1 + (0x05#8 : Byte).toNat + 11 + 2 ≤ v2Frame.length := by decide

/-- K8, K9, K11; and the ends of the supported ranges. -/
theorem test_witness_CheckUnsupportedLength :
    (1 + (0x00#8 : Byte).toNat + 11 + 2 ≤ v2Frame.length ∧ (0x00#8 : Byte).toNat < 1) ∧
    (1 + (0x06#8 : Byte).toNat + 11 + 2 ≤ (v2Frame ++ [0x00#8]).length ∧ 5 < (0x06#8 : Byte).toNat) ∧
    (1 + (0x05#8 : Byte).toNat + 11 + 2 ≤ v2Frame.length ∧ (0x03#8 : Byte).toNat ≠ 1 ∧ (0x03#8 : Byte).toNat ≠ 2) ∧
    (1 ≤ (0x01#8 : Byte).toNat ∧ (0x05#8 : Byte).toNat ≤ 5 ∧ (0x01#8 : Byte).toNat = 1 ∧ (0x02#8 : Byte).toNat = 2) := by decide

/-- K4 and K5: one of the two CRC bytes wrong; K1: both right. -/
theorem test_witness_CheckReportsCrcMismatch :
    1 ≤ v2Address.length ∧ v2Address.length ≤ 5 ∧ v2Payload.length = 11 ∧
    ¬ ((0x89#8 : Byte) = hi8 (frameCrc v2Address v2Payload) ∧ (0xAC#8 : Byte) = lo8 (frameCrc v2Address v2Payload)) ∧
    ¬ ((0x09#8 : Byte) = hi8 (frameCrc v2Address v2Payload) ∧ (0xAD#8 : Byte) = lo8 (frameCrc v2Address v2Payload)) ∧
    ((0x89#8 : Byte) = hi8 (frameCrc v2Address v2Payload) ∧ (0xAD#8 : Byte) = lo8 (frameCrc v2Address v2Payload)) := by
  decide +kernel

/-- K1. -/
theorem test_witness_CheckRebuildsMatchingFrame :
    1 ≤ v2Address.length ∧ v2Address.length ≤ 5 ∧ v2Payload.length = 11 ∧
    (0x89#8 : Byte) = hi8 (frameCrc v2Address v2Payload) ∧ (0xAD#8 : Byte) = lo8 (frameCrc v2Address v2Payload) ∧
    1 ≤ v2Address.length + 13 ∧ v2Address.length + 13 < v2Address.length + 14 := by decide +kernel

/-- V2, whose frame K1 checks. -/
theorem test_witness_BuildThenCheckRoundTrip :
    1 ≤ v2Address.length ∧ v2Address.length ≤ 5 ∧ v2Payload.length = 11 ∧
    (∃ t, exec (.frmBuild (0x00#8 :: BitVec.ofNat 8 v2Address.length :: 0x0B#8 :: 0x00#8 :: 0x00#8 :: 0x02#8 ::
      (v2Address ++ (v2Payload ++ [])))) State.reset = .next t ∧
      (t.responses == State.reset.responses ++ [0x00#8 :: v2Frame]) = true) :=
  ⟨by decide, by decide, by decide, next_with _ (by decide +kernel)⟩

/-- The first and the last bit that a flip is detected at. -/
theorem test_witness_SingleBitFlipDetected :
    1 ≤ v2Address.length ∧ v2Address.length ≤ 5 ∧ v2Payload.length = 11 ∧ 0 < 8 ∧ 7 < 8 ∧ 1 < v2Address.length + 14 ∧
    1 ≤ v2Address.length + 13 ∧ flipBit v2Frame 18 7 ≠ v2Frame := by decide +kernel

/-- No frame, and a frame that fills the buffer; a delivered `FRM.READ`, and one with a stray byte. -/
theorem test_witness_FrmReadCommand :
    (State.reset.flen.toNat ≤ 40 ∧ State.reset.flen = 0x0000#16) ∧ afterV5.flen.toNat = 40 ∧
    Delivers (waiting State.reset [0x12#8]) 0x12#8 [] [] ∧
    (([0x00#8] : List Byte) ≠ [] ∧ Delivers (waiting State.reset [0x12#8, 0x00#8]) 0x12#8 [0x00#8] []) :=
  ⟨by decide, by decide +kernel, rfl, by decide, rfl⟩

theorem test_witness_FrmReadStopsOutsideFrameBuffer : 40 < ({ State.reset with flen := 41#16 } : State).flen.toNat := by decide

theorem test_witness_FrmInfoCommand :
    Delivers (waiting State.reset [0x13#8]) 0x13#8 [] [] ∧
    (([0x13#8] : List Byte) ≠ [] ∧ Delivers (waiting State.reset [0x13#8, 0x13#8]) 0x13#8 [0x13#8] []) ∧
    (∃ t, t = failedWith 0x03#8 afterV1) := ⟨rfl, ⟨by decide, rfl⟩, _, rfl⟩

/-- Each of the four commands answers a next state; `FRM.BUILD` and `FRM.CHECK` in success and in failure. -/
theorem test_witness_FramerLeavesCrcRegister :
    (∃ t, exec (.frmBuild (v1.drop 1)) State.reset = .next t ∧ (t.fstat == 0x00#8) = true) ∧
    (∃ t, exec (.frmBuild []) State.reset = .next t ∧ (t.fstat == 0x01#8) = true) ∧
    (∃ t, exec (.frmCheck 0x05#8 0x02#8 v2Frame) State.reset = .next t ∧ (t.fstat == 0x00#8) = true) ∧
    (∃ t, exec (.frmCheck 0x05#8 0x03#8 v2Frame) State.reset = .next t ∧ (t.fstat == 0x02#8) = true) ∧
    (∃ t, exec .frmRead State.reset = .next t ∧ (t.fstat == 0x00#8) = true) ∧
    (∃ t, exec .frmInfo State.reset = .next t ∧ (t.fstat == 0x00#8) = true) :=
  ⟨next_with _ (by decide +kernel), next_with _ (by decide +kernel), next_with _ (by decide +kernel),
    next_with _ (by decide +kernel), next_with _ (by decide +kernel), next_with _ (by decide +kernel)⟩

/-- Each of the three error codes, by E8, E6 and K20. -/
theorem test_witness_RaisedErrorDeterminesState :
    (∃ t, exec (.frmBuild []) afterV1 = .next t ∧ (t.responses == afterV1.responses ++ [[0x01#8]]) = true) ∧
    (∃ t, exec (.frmBuild [0x00#8, 0x01#8, 0x00#8, 0x00#8, 0x00#8, 0x00#8, 0x80#8]) afterV1 = .next t ∧
      (t.responses == afterV1.responses ++ [[0x02#8]]) = true) ∧
    (∃ t, exec (.frmCheck 0x05#8 0x02#8 (List.replicate 19 0x00#8)) afterV1 = .next t ∧
      (t.responses == afterV1.responses ++ [[0x03#8]]) = true) :=
  ⟨next_with _ (by decide +kernel), next_with _ (by decide +kernel), next_with _ (by decide +kernel)⟩

/-- A success, an error of the framer, an illegal command. -/
theorem test_witness_EveryCommandAnswersOnce :
    (Delivers (waiting State.reset [0x03#8, 0x31#8]) 0x03#8 [0x31#8] [] ∧
      (∃ t, step (waiting State.reset [0x03#8, 0x31#8]) = .next t ∧ (t.crc == 0xC782#16) = true) ∧
      decode [0x03#8, 0x31#8] = .ok (.crcUpdb 0x31#8)) ∧
    (Delivers (waiting State.reset [0x10#8]) 0x10#8 [] [] ∧
      (∃ t, step (waiting State.reset [0x10#8]) = .next t ∧ (t.fstat == 0x01#8) = true) ∧
      decode [0x10#8] = .ok (.frmBuild [])) ∧
    (Delivers (waiting State.reset [0x14#8]) 0x14#8 [] [] ∧
      (∃ t, step (waiting State.reset [0x14#8]) = .next t ∧ (t.responses == [[0x04#8]]) = true) ∧
      decode [0x14#8] = .error (.reservedOpcode 0x14#8)) :=
  ⟨⟨rfl, next_with _ (by decide +kernel), by decide⟩, ⟨rfl, next_with _ (by decide +kernel), by decide⟩,
    ⟨rfl, next_with _ (by decide +kernel), by decide⟩⟩

/-- A command that is none of the writers of `CRC`, one that is none of the framer's, and one that is illegal. -/
theorem test_witness_RegistersHaveTheirWriters :
    (Delivers (waiting State.reset v1) 0x10#8 (v1.drop 1) [] ∧
      (∃ t, step (waiting State.reset v1) = .next t ∧ (t.flen == 12#16) = true) ∧
      (0x10#8 : Byte) ≠ 0x01#8 ∧ (0x10#8 : Byte) ≠ 0x02#8 ∧ (0x10#8 : Byte) ≠ 0x03#8 ∧ (0x10#8 : Byte) ≠ 0x04#8) ∧
    (Delivers (waiting afterV1 [0x12#8]) 0x12#8 [] [] ∧
      (∃ t, step (waiting afterV1 [0x12#8]) = .next t ∧ (t.flen == 12#16) = true) ∧
      (0x12#8 : Byte) ≠ 0x10#8 ∧ (0x12#8 : Byte) ≠ 0x11#8) ∧
    decode [0x14#8] = .error (.reservedOpcode 0x14#8) :=
  ⟨⟨rfl, next_with _ (by decide +kernel), by decide⟩, ⟨rfl, next_with _ (by decide +kernel), by decide⟩, by decide⟩

/-- The ends of the three reserved ranges. -/
theorem test_witness_ReservedOpcodesAreIllegal :
    (0x00#8 : Byte).toNat = 0x00 ∧ (0x06 ≤ (0x06#8 : Byte).toNat ∧ (0x06#8 : Byte).toNat ≤ 0x0F) ∧
    (0x06 ≤ (0x0F#8 : Byte).toNat ∧ (0x0F#8 : Byte).toNat ≤ 0x0F) ∧ 0x14 ≤ (0x14#8 : Byte).toNat ∧
    0x14 ≤ (0xFF#8 : Byte).toNat ∧ Delivers (waiting State.reset [0x14#8, 0x01#8]) 0x14#8 [0x01#8] [] :=
  ⟨by decide, by decide, by decide, by decide, by decide, rfl⟩

/-- Each format with a length one off, and a delivered `FRM.BUILD` with an empty blob. -/
theorem test_witness_WrongLengthsAreIllegal :
    ((0x05#8 : Byte) = 0x05#8 ∧ [0x00#8].length + 1 ≠ 1) ∧ ((0x03#8 : Byte) = 0x03#8 ∧ ([] : List Byte).length + 1 ≠ 2) ∧
    ((0x02#8 : Byte) = 0x02#8 ∧ [0x00#8].length + 1 ≠ 3) ∧ ((0x11#8 : Byte) = 0x11#8 ∧ [0x05#8].length + 1 < 3) ∧
    Delivers (waiting State.reset [0x10#8]) 0x10#8 [] [] :=
  ⟨by decide, by decide, by decide, by decide, rfl⟩

theorem test_witness_DecodeAgreesWithEncode :
    (Instr.frmBuild []).wf = true ∧ encode (.frmBuild []) = [0x10#8] ∧
    (Instr.frmCheck 0xFF#8 0x00#8 [0x55#8]).wf = true ∧
    encode (.frmCheck 0xFF#8 0x00#8 [0x55#8]) = [0x11#8, 0xFF#8, 0x00#8, 0x55#8] := by decide

theorem test_witness_StepRunsDecodedCommand :
    Delivers (waiting State.reset [0x03#8, 0x31#8]) 0x03#8 [0x31#8] [] ∧ decode [0x03#8, 0x31#8] = .ok (.crcUpdb 0x31#8) ∧
    (Instr.crcUpdb 0x31#8).wf = true := ⟨rfl, by decide, rfl⟩

theorem test_witness_StepWaitsWithoutEvent : State.reset.pending = [] := rfl

theorem test_witness_ResetEventRestoresResetState :
    { afterV1 with pending := [.reset, .command 0x05#8 []] }.pending = .reset :: [.command 0x05#8 []] := rfl

/-- The ends of both accepted ranges. -/
theorem test_witness_FramesFitTheBuffer :
    Params.esbf.wf = true ∧ alenSupported Params.esbf 0x01#8 = true ∧ alenSupported Params.esbf 0x05#8 = true ∧
    plenSupported Params.esbf 0x00#8 = true ∧ plenSupported Params.esbf 0x20#8 = true ∧
    alenSupported Params.esbf 0x06#8 = false ∧ plenSupported Params.esbf 0x21#8 = false := by decide

/-- The invariant with no packet and with the smallest and the largest packet; and a step from each. -/
theorem test_witness_StepKeepsInvariant :
    BlockInv Params.esbf (waiting State.reset v1) ∧ BlockInv Params.esbf (waiting afterV5 [0x10#8]) ∧
    (∃ t, step (waiting State.reset v1) = .next t ∧ (t.flen == 12#16) = true) ∧
    (∃ t, step (waiting afterV5 [0x10#8]) = .next t ∧ (t.fstat == 0x01#8) = true) :=
  ⟨by decide +kernel, by decide +kernel, next_with _ (by decide +kernel), next_with _ (by decide +kernel)⟩

/-- A state of the invariant with a packet held and a command delivered, legal or not. -/
theorem test_witness_EveryCommandResponds :
    BlockInv Params.esbf (waiting afterV5 [0x12#8]) ∧ Delivers (waiting afterV5 [0x12#8]) 0x12#8 [] [] ∧
    BlockInv Params.esbf (waiting afterV5 [0x14#8]) ∧ Delivers (waiting afterV5 [0x14#8]) 0x14#8 [] [] :=
  ⟨by decide +kernel, rfl, by decide +kernel, rfl⟩

theorem test_witness_RunsAnswerEveryCommand :
    BlockInv Params.esbf { afterV5 with pending := [.command 0x12#8 [], .reset, .command 0x14#8 []] } := by decide +kernel

/-- The commands for an address of two bytes and a payload of one. -/
theorem test_witness_HostReproducesFrameChecksum :
    ({ State.reset with pending := checksumCommands ([0x31#8, 0x32#8] ++ [0x35#8]) ++ [.reset] } : State).pending =
      checksumCommands ([0x31#8, 0x32#8] ++ [0x35#8]) ++ [.reset] ∧
    [0x31#8, 0x32#8].length ≤ 5 ∧ [0x35#8].length ≤ 32 ∧
    (∃ v, exec (.frmBuild (0x00#8 :: BitVec.ofNat 8 [0x31#8, 0x32#8].length :: BitVec.ofNat 8 [0x35#8].length :: 0x00#8 ::
      0x00#8 :: 0x02#8 :: ([0x31#8, 0x32#8] ++ [0x35#8]))) State.reset = .next v ∧ (v.flen != 0x0000#16) = true) :=
  ⟨rfl, by decide, by decide, next_with _ (by decide +kernel)⟩

/-- The lengths that fit a byte, at both ends. -/
theorem test_witness_PseudoCommandsExpand :
    ([] : List Byte).length ≤ 255 ∧ (List.replicate 255 0x00#8).length ≤ 255 := ⟨by decide, by rw [List.length_replicate]⟩

/-- One byte too many, in the address and in the payload. -/
theorem test_witness_UndefinedPseudoOperands :
    255 < (List.replicate 256 0x00#8).length ∧ 255 < (0x00#8 :: List.replicate 255 0x00#8).length :=
  ⟨by rw [List.length_replicate]; decide, by rw [List.length_cons, List.length_replicate]; decide⟩

/-- The whole of one written command read back (R57's example in the other direction). -/
theorem test_witness_AssemblerReadsWrittenCommand :
    showInstr (.crcUpdn 0x80#8 0x01#8) = "CRC.UPDN 0x80, 0x01".toList := by decide +kernel

end Tests
end Machine
end Sys2Proof
end

section
/-! PROOFS. The statements about the state (10_state.md): the reset values (R27), the packet fields of a held frame (R23), the
invariant (R21). What `FRM.BUILD` and `FRM.CHECK` can leave is said once: no packet and an error code (`failedWith`), or the frame of
an address and a payload (`withPacket`). -/

namespace Sys2Proof
namespace Machine

/-! ### Splitting a byte string -/

/-- A string of at least `m + n` bytes begins with a part of `m` and a part of `n` bytes. -/
theorem exists_two_parts {l : List Byte} {m n : Nat} (h : m + n ≤ l.length) :
    ∃ a b c, l = a ++ (b ++ c) ∧ a.length = m ∧ b.length = n := by
  refine ⟨l.take m, (l.drop m).take n, (l.drop m).drop n, ?_, ?_, ?_⟩
  · rw [List.take_append_drop, List.take_append_drop]
  · rw [List.length_take]; omega
  · rw [List.length_take, List.length_drop]; omega

/-- A string of at least two bytes. -/
theorem exists_cons_cons {l : List Byte} (h : 2 ≤ l.length) : ∃ b₀ b₁ r, l = b₀ :: b₁ :: r := by
  match l, h with
  | b₀ :: b₁ :: r, _ => exact ⟨b₀, b₁, r, rfl⟩

/-! ### The fields of a blob and of a received buffer that are given by their parts (30_encoding.md R47, R49) -/

section
variable {alen plen : Byte} {address payload : List Byte}

theorem blobAddress_parts (f₀ f₁ f₂ f₃ f₄ f₅ : Byte) (extra : List Byte) (ha : address.length = alen.toNat) :
    blobAddress (f₀ :: f₁ :: f₂ :: f₃ :: f₄ :: f₅ :: (address ++ extra)) alen = .ok address :=
  slice_append_mid [f₀, f₁, f₂, f₃, f₄, f₅] address extra _ _ rfl (by simp [blobFixed, ha])

theorem blobPayload_parts (f₀ f₁ f₂ f₃ f₄ f₅ : Byte) (extra : List Byte) (ha : address.length = alen.toNat)
    (hp : payload.length = plen.toNat) :
    blobPayload (f₀ :: f₁ :: f₂ :: f₃ :: f₄ :: f₅ :: (address ++ (payload ++ extra))) alen plen = .ok payload := by
  have h := slice_append_mid ([f₀, f₁, f₂, f₃, f₄, f₅] ++ address) payload extra (blobFixed + alen.toNat)
    (blobFixed + alen.toNat + plen.toNat) (by simp [blobFixed, ha]; omega) (by simp [blobFixed, ha, hp]; omega)
  simpa [blobPayload] using h

theorem rawAddress_parts (pre : Byte) (extra : List Byte) (ha : address.length = alen.toNat) :
    rawAddress (pre :: (address ++ extra)) alen = .ok address :=
  slice_append_mid [pre] address extra _ _ rfl (by simp [ha])

theorem rawPayload_parts (pre : Byte) (extra : List Byte) (ha : address.length = alen.toNat) (hp : payload.length = 11) :
    rawPayload (pre :: (address ++ (payload ++ extra))) alen = .ok payload := by
  have h := slice_append_mid (pre :: address) payload extra (1 + alen.toNat) (1 + alen.toNat + parsePlen)
    (by simp [ha]; omega) (by simp [ha, hp, parsePlen]; omega)
  simpa [rawPayload] using h

theorem getElem?_behind_parts (address payload : List Byte) (pre : Byte) (tail : List Byte) (i : Nat) :
    (pre :: (address ++ (payload ++ tail)))[1 + address.length + payload.length + i]? = tail[i]? := by
  have h : 1 + address.length + payload.length + i = (address.length + (payload.length + i)) + 1 := by omega
  simp [h, List.getElem?_append_right]

theorem rawCrcHi_parts (pre hi : Byte) (extra : List Byte) (ha : address.length = alen.toNat) (hp : payload.length = 11) :
    rawCrcHi (pre :: (address ++ (payload ++ hi :: extra))) alen = .ok hi := by
  have h := getElem?_behind_parts address payload pre (hi :: extra) 0
  rw [ha, hp] at h
  exact byteAt_eq_ok_iff.mpr h

theorem rawCrcLo_parts (pre hi lo : Byte) (extra : List Byte) (ha : address.length = alen.toNat) (hp : payload.length = 11) :
    rawCrcLo (pre :: (address ++ (payload ++ hi :: lo :: extra))) alen = .ok lo := by
  have h := getElem?_behind_parts address payload pre (hi :: lo :: extra) 1
  have e : 1 + alen.toNat + 11 + 1 = 2 + alen.toNat + parsePlen := by simp only [parsePlen]; omega
  rw [ha, hp, e] at h
  exact byteAt_eq_ok_iff.mpr h

end

/-! ### Completing a frame in a cleared frame buffer -/

section
variable {p : Params} {alen plen : Byte} {address payload : List Byte} (s : State)

/-- The completion of R91 and R107, with the frame in `FB`, is the state `withPacket`. -/
theorem holdPacket_frame (crclen chan : Byte) (ha : address.length = alen.toNat) (hp : payload.length = plen.toNat)
    (hfit : 3 + address.length + payload.length ≤ p.fbSize) :
    holdPacket p alen plen crclen chan (frameCrc address payload) (memoryOf (frameOf address payload)) (invalidate s) =
      .ok (withPacket address payload crclen chan s) := by
  have hlen : frameLength alen.toNat plen.toNat = (frameOf address payload).length := by
    simp [frameLength, crcBytes, ha, hp]; omega
  have hbytes : fbBytes (memoryOf (frameOf address payload)) 0 (frameOf address payload).length = frameOf address payload :=
    fbBytes_fbSetBytes (lo := 0) (size := p.fbSize) rfl (Nat.le_refl 0) (by simp; omega)
  rw [holdPacket_ok (by simp [hlen]; omega), hlen, hbytes]
  have hflen : (frameOf address payload).length = address.length + payload.length + 3 := by simp; omega
  simp [withPacket, invalidate, hflen, ha, hp, statusOk]

/-- The body and the CRC bytes written into a cleared frame buffer are the frame of R32 (R84 to R90). -/
theorem writeCrc_body_eq_frame {first : Byte} {others : List Byte}
    (hfit : 3 + (first :: others).length + payload.length ≤ p.fbSize) :
    writeCrc p (fbSetBytes [] 0 (preambleFor first :: ((first :: others) ++ payload))) (first :: others).length payload.length
        (frameCrc (first :: others) payload) =
      .ok (memoryOf (frameOf (first :: others) payload)) := by
  rw [writeCrc_after_body _ (by simp; omega) hfit, memoryOf, frameOf_eq_body_append]

/-- `FRM.BUILD` after its length checks (R84 to R91). -/
theorem assemble_parts (chan f₁ f₂ f₃ f₄ f₅ crclen : Byte) (extra : List Byte) (hne : 1 ≤ address.length)
    (ha : address.length = alen.toNat) (hp : payload.length = plen.toNat) (hfit : 3 + address.length + payload.length ≤ p.fbSize) :
    assemble p (chan :: f₁ :: f₂ :: f₃ :: f₄ :: f₅ :: (address ++ (payload ++ extra))) alen plen crclen (invalidate s) =
      .ok (withPacket address payload crclen chan s) := by
  obtain ⟨first, others, rfl⟩ := List.exists_cons_of_length_pos hne
  unfold assemble
  rw [blobAddress_parts _ _ _ _ _ _ _ ha, except_bind_ok, blobPayload_parts _ _ _ _ _ _ _ ha hp, except_bind_ok, invalidate_fb,
    writeBody_ok (by rw [List.length_cons] at hfit; omega), except_bind_ok, ← ha, ← hp, windowCrc_after_body (by omega),
    except_bind_ok, writeCrc_body_eq_frame hfit, except_bind_ok, blobChannel, byteAt_cons_zero, except_bind_ok]
  exact holdPacket_frame s crclen chan ha hp hfit

/-- `FRM.CHECK` after its length checks: the comparison decides between the packet and the mismatch (R104, R105, R107). -/
theorem checkFrame_parts (pre hi lo crclen : Byte) (extra : List Byte) (hne : 1 ≤ address.length)
    (ha : address.length = alen.toNat) (hp : payload.length = 11) (hfit : 3 + address.length + payload.length ≤ p.fbSize) :
    checkFrame p alen crclen (pre :: (address ++ (payload ++ hi :: lo :: extra))) (invalidate s) =
      .ok (if hi = hi8 (frameCrc address payload) ∧ lo = lo8 (frameCrc address payload)
        then withPacket address payload crclen 0x00#8 s else failedWith 0x03#8 s) := by
  obtain ⟨first, others, rfl⟩ := List.exists_cons_of_length_pos hne
  have hplen : payload.length = (BitVec.ofNat 8 parsePlen).toNat := hp
  unfold checkFrame
  rw [rawAddress_parts _ _ ha, except_bind_ok, rawPayload_parts _ _ ha hp, except_bind_ok, rawCrcHi_parts _ _ _ ha hp,
    except_bind_ok, rawCrcLo_parts _ _ _ _ ha hp, except_bind_ok]
  by_cases hmatch : hi = hi8 (frameCrc (first :: others) payload) ∧ lo = lo8 (frameCrc (first :: others) payload)
  · have hpp : parsePlen = payload.length := hp.symm
    rw [if_pos hmatch, if_pos hmatch, invalidate_fb, writeBody_ok (by rw [List.length_cons] at hfit; omega), except_bind_ok, ← ha,
      hpp, writeCrc_body_eq_frame hfit, except_bind_ok, ← hpp]
    exact holdPacket_frame s crclen 0x00#8 ha hplen hfit
  · rw [if_neg hmatch, if_neg hmatch]
    rfl

end

/-! ### What the two large commands can leave -/

/-- The state after a framer command: no packet and a framer error's code (R120), or a packet with supported lengths (R83, R91, R102,
R107). -/
inductive FramerResult (s : State) : State → Prop where
  | failed (code : Byte) (hcode : code = 0x01#8 ∨ code = 0x02#8 ∨ code = 0x03#8) : FramerResult s (failedWith code s)
  | held (address payload : List Byte) (crclen chan : Byte) (hmin : 1 ≤ address.length) (hmax : address.length ≤ 5)
      (hp : payload.length ≤ 32) (hc : crclen = 0x01#8 ∨ crclen = 0x02#8) :
      FramerResult s (withPacket address payload crclen chan s)

theorem build_framerResult {blob : List Byte} {s t : State} (h : build Params.esbf blob s = .ok t) : FramerResult s t := by
  obtain ⟨_, rfl⟩ | ⟨chan, alen, plen, q, n, crclen, rest, rfl, hcase⟩ := build_cases h
  · exact .failed 0x01#8 (.inl rfl)
  obtain ⟨_, rfl⟩ | ⟨_, _, rfl⟩ | ⟨hlen, hsup, hasm⟩ := hcase
  · exact .failed 0x01#8 (.inl rfl)
  · exact .failed 0x02#8 (.inr (.inl rfl))
  · obtain ⟨address, payload, extra, rfl, ha, hp⟩ := exists_two_parts hlen
    simp only [Bool.and_eq_true, alenSupported_iff, plenSupported_iff, crclenSupported_iff, esbf_alenMin, esbf_alenMax,
      esbf_plenMax] at hsup
    obtain ⟨⟨⟨hmin, hmax⟩, hpmax⟩, hc⟩ := hsup
    rw [assemble_parts s _ _ _ _ _ _ _ extra (by omega) ha hp (by rw [esbf_fbSize]; omega)] at hasm
    injection hasm with hasm
    subst hasm
    exact .held address payload crclen chan (by omega) (by omega) (by omega) hc

/-- `FRM.BUILD` with supported lengths and every byte present holds the packet (R84 to R91). -/
theorem build_parts {crclen : Byte} {address payload : List Byte} (s : State) (chan q n : Byte) (extra : List Byte)
    (hmin : 1 ≤ address.length) (hmax : address.length ≤ 5) (hp : payload.length ≤ 32)
    (hc : crclen = 0x01#8 ∨ crclen = 0x02#8) :
    build Params.esbf (chan :: BitVec.ofNat 8 address.length :: BitVec.ofNat 8 payload.length :: q :: n :: crclen ::
        (address ++ (payload ++ extra))) s = .ok (withPacket address payload crclen chan s) := by
  have ha : address.length = (BitVec.ofNat 8 address.length).toNat := by rw [BitVec.toNat_ofNat]; omega
  have hpl : payload.length = (BitVec.ofNat 8 payload.length).toNat := by rw [BitVec.toNat_ofNat]; omega
  have hsup : (alenSupported Params.esbf (BitVec.ofNat 8 address.length) &&
      plenSupported Params.esbf (BitVec.ofNat 8 payload.length) && crclenSupported crclen) = true := by
    simp only [Bool.and_eq_true, alenSupported_iff, plenSupported_iff, crclenSupported_iff, ← ha, ← hpl]
    exact ⟨⟨⟨hmin, hmax⟩, hp⟩, hc⟩
  rw [build_fields, if_neg (by rw [← ha, ← hpl]; simp), if_pos hsup]
  exact assemble_parts s chan _ _ q n crclen crclen extra hmin ha hpl (by rw [esbf_fbSize]; omega)

/-- A received buffer that is long enough is the preamble, the address, eleven payload bytes and at least two bytes more (R49). -/
theorem exists_raw_parts {raw : List Byte} {n : Nat} (h : n + 14 ≤ raw.length) :
    ∃ pre address payload tail, raw = pre :: (address ++ (payload ++ tail)) ∧
      address.length = n ∧ payload.length = 11 ∧ 2 ≤ tail.length := by
  obtain ⟨pre, body, rfl⟩ := List.exists_cons_of_length_pos (l := raw) (by omega)
  rw [List.length_cons] at h
  obtain ⟨address, payload, tail, rfl, ha, hp⟩ := exists_two_parts (l := body) (m := n) (n := 11) (by omega)
  rw [List.length_append, List.length_append] at h
  exact ⟨pre, address, payload, tail, rfl, ha, hp, by omega⟩

/-- Behind the length checks `FRM.CHECK` answers the mismatch, or holds the packet of the received address and payload. -/
theorem checkFrame_result {alen crclen pre : Byte} {address payload tail : List Byte} {s t : State}
    (ha : address.length = alen.toNat) (hp : payload.length = 11) (htail : 2 ≤ tail.length)
    (hsup : (alenSupported Params.esbf alen && crclenSupported crclen) = true)
    (h : checkFrame Params.esbf alen crclen (pre :: (address ++ (payload ++ tail))) (invalidate s) = .ok t) :
    t = failedWith 0x03#8 s ∨
    (1 ≤ address.length ∧ address.length ≤ 5 ∧ (crclen = 0x01#8 ∨ crclen = 0x02#8) ∧
      t = withPacket address payload crclen 0x00#8 s) := by
  obtain ⟨hi, lo, extra, rfl⟩ := exists_cons_cons htail
  simp only [Bool.and_eq_true, alenSupported_iff, crclenSupported_iff, esbf_alenMin, esbf_alenMax] at hsup
  obtain ⟨⟨hmin, hmax⟩, hc⟩ := hsup
  rw [checkFrame_parts s pre hi lo crclen extra (by omega) ha hp (by rw [esbf_fbSize]; omega)] at h
  injection h with h
  subst h
  split
  · exact .inr ⟨by omega, by omega, hc, rfl⟩
  · exact .inl rfl

theorem check_framerResult {alen crclen : Byte} {raw : List Byte} {s t : State} (h : check Params.esbf alen crclen raw s = .ok t) :
    FramerResult s t := by
  obtain ⟨_, rfl⟩ | ⟨_, _, rfl⟩ | ⟨hlen, hsup, hcheck⟩ := check_cases h
  · exact .failed 0x01#8 (.inl rfl)
  · exact .failed 0x02#8 (.inr (.inl rfl))
  · obtain ⟨pre, address, payload, tail, rfl, ha, hp, htail⟩ := exists_raw_parts hlen
    obtain rfl | ⟨hmin, hmax, hc, rfl⟩ := checkFrame_result ha hp htail hsup hcheck
    · exact .failed 0x03#8 (.inr (.inr rfl))
    · exact .held address payload crclen 0x00#8 hmin hmax (by omega) hc

/-! ### What is read from a state that holds a frame (10_state.md R21 to R23) -/

/-- Behind one preamble byte, address and payload a frame ends with its checksum, high byte first (R90). -/
theorem frameOf_ends_with_crc (address payload : List Byte) :
    ∃ pre, frameOf address payload =
      (pre :: (address ++ payload)) ++ [hi8 (frameCrc address payload), lo8 (frameCrc address payload)] :=
  ⟨_, by rw [frameOf, List.cons_append, List.append_assoc]⟩

section
variable {address payload : List Byte} (crclen chan : Byte) (s : State)

theorem withPacket_alen_toNat (hmax : address.length ≤ 5) :
    (withPacket address payload crclen chan s).alen.toNat = address.length := by
  rw [withPacket_alen, BitVec.toNat_ofNat]; omega

theorem withPacket_plen_toNat (hp : payload.length ≤ 32) :
    (withPacket address payload crclen chan s).plen.toNat = payload.length := by
  rw [withPacket_plen, BitVec.toNat_ofNat]; omega

variable (hmax : address.length ≤ 5) (hp : payload.length ≤ 32)
include hmax hp

/-- A part of a held frame, read from the frame buffer at its offset. -/
theorem fbBytes_withPacket {a b c : List Byte} {n k : Nat} (hframe : frameOf address payload = a ++ (b ++ c))
    (hn : n = a.length) (hk : k = b.length) :
    fbBytes (withPacket address payload crclen chan s).fb n k = b := by
  subst hn hk
  exact fbBytes_memoryOf_part hframe (by rw [frameOf_length]; omega)

theorem packetAddress_withPacket : packetAddress (withPacket address payload crclen chan s) = address :=
  fbBytes_withPacket crclen chan s hmax hp (a := [_]) rfl rfl (withPacket_alen_toNat crclen chan s hmax)

theorem packetPayload_withPacket : packetPayload (withPacket address payload crclen chan s) = payload :=
  fbBytes_withPacket crclen chan s hmax hp (a := _ :: address) rfl
    (by rw [withPacket_alen_toNat crclen chan s hmax, List.length_cons, Nat.add_comm])
    (withPacket_plen_toNat crclen chan s hp)

/-- The first bytes of the CRC field, as many as `crclen` says (R23). -/
theorem packetCrcField_withPacket {b c : List Byte}
    (hbc : [hi8 (frameCrc address payload), lo8 (frameCrc address payload)] = b ++ c) (hk : crclen.toNat = b.length) :
    packetCrcField (withPacket address payload crclen chan s) = b := by
  obtain ⟨pre, hframe⟩ := frameOf_ends_with_crc address payload
  rw [hbc] at hframe
  refine fbBytes_withPacket crclen chan s hmax hp hframe ?_ hk
  rw [withPacket_alen_toNat crclen chan s hmax, withPacket_plen_toNat crclen chan s hp, List.length_cons, List.length_append]
  omega

theorem packetBytes_withPacket : packetBytes (withPacket address payload crclen chan s) = frameOf address payload :=
  fbBytes_withPacket crclen chan s hmax hp (a := []) (c := []) (by simp) rfl (withPacket_flen_toNat crclen chan s hmax hp)

/-- The source's packet fields of a held frame (R22, R23). -/
theorem holdsFields_withPacket (hc : crclen = 0x01#8 ∨ crclen = 0x02#8) :
    HoldsFields address payload crclen (withPacket address payload crclen chan s) := by
  refine ⟨packetAddress_withPacket crclen chan s hmax hp, packetPayload_withPacket crclen chan s hmax hp, ?_,
    packetBytes_withPacket crclen chan s hmax hp, ?_⟩
  · obtain rfl | rfl := hc
    · exact packetCrcField_withPacket _ chan s hmax hp (b := [_]) rfl rfl
    · exact packetCrcField_withPacket _ chan s hmax hp (b := [_, _]) (c := []) rfl rfl
  · rw [bitLength, withPacket_flen_toNat crclen chan s hmax hp, Nat.mul_comm]

end

/-- Settles O20: both commands leave `withPacket` of the address and payload they were given. -/
theorem packetFieldsOfHeldFrame : Obligations.PacketFieldsOfHeldFrame := by
  unfold Obligations.PacketFieldsOfHeldFrame
  refine ⟨?build, ?check⟩
  case build =>
    intro chan q n crclen address payload extra s t hmin hmax hp hc h
    rw [exec_frmBuild, outcomeOf_eq_next, build_parts s chan q n extra hmin hmax hp hc] at h
    injection h with h
    subst h
    exact holdsFields_withPacket crclen chan s hmax hp hc
  case check =>
    intro alen crclen pre address payload tail s t ha hp h hok
    rw [exec_frmCheck, outcomeOf_eq_next] at h
    obtain ⟨_, rfl⟩ | ⟨_, _, rfl⟩ | ⟨hlen, hsup, hcheck⟩ := check_cases h
    · rw [raise_fstat _ (by decide)] at hok
      exact absurd hok (by decide)
    · rw [raise_fstat _ (by decide)] at hok
      exact absurd hok (by decide)
    · simp only [List.length_cons, List.length_append] at hlen
      obtain rfl | ⟨_, hmax, hc, rfl⟩ := checkFrame_result ha hp (by omega) hsup hcheck
      · rw [failedWith_fstat] at hok
        exact absurd hok (by decide)
      · exact holdsFields_withPacket crclen 0x00#8 s hmax (by omega) hc

/-! ### The invariant R21 -/

/-- What R21 says of no packet holds after a framer error. -/
theorem blockInv_failedWith (s : State) {code : Byte} (hcode : code = 0x01#8 ∨ code = 0x02#8 ∨ code = 0x03#8) :
    BlockInv Params.esbf (failedWith code s) :=
  ⟨rfl, fun h => absurd rfl h, fun _ => ⟨rfl, rfl, rfl, rfl, rfl, fun _ _ => rfl, .inr hcode⟩⟩

theorem blockInv_applyReset (s : State) : BlockInv Params.esbf (applyReset s) :=
  ⟨rfl, fun h => absurd rfl h, fun _ => ⟨rfl, rfl, rfl, rfl, rfl, fun _ _ => rfl, .inl rfl⟩⟩

/-- The preamble of a frame is chosen by its byte 1, the first of the address (R85). -/
theorem frameOf_preamble {address payload : List Byte} (hmin : 1 ≤ address.length) :
    (frameOf address payload).getD 0 0x00#8 =
      if 0x80 ≤ ((frameOf address payload).getD 1 0x00#8).toNat then 0xAA#8 else 0x55#8 := by
  obtain ⟨first, others, rfl⟩ := List.exists_cons_of_length_pos hmin
  rfl

/-- The last two bytes of a frame are the checksum, high byte first (R90). -/
theorem frameOf_crc_bytes (address payload : List Byte) :
    (frameOf address payload).getD ((frameOf address payload).length - 2) 0x00#8 = hi8 (frameCrc address payload) ∧
    (frameOf address payload).getD ((frameOf address payload).length - 1) 0x00#8 = lo8 (frameCrc address payload) := by
  obtain ⟨pre, hframe⟩ := frameOf_ends_with_crc address payload
  rw [hframe]
  generalize pre :: (address ++ payload) = body
  simp

section
variable {address payload : List Byte} (crclen chan : Byte) (s : State)
variable (hmax : address.length ≤ 5) (hp : payload.length ≤ 32)
include hmax hp

theorem fbGet_withPacket (i : Nat) :
    fbGet (withPacket address payload crclen chan s).fb i = (frameOf address payload).getD i 0x00#8 :=
  fbGet_memoryOf (by rw [frameOf_length]; omega) i

/-- What R21 says of a held packet holds of a frame with supported lengths. -/
theorem packetHeld_withPacket (hmin : 1 ≤ address.length) (hc : crclen = 0x01#8 ∨ crclen = 0x02#8) :
    PacketHeld Params.esbf (withPacket address payload crclen chan s) := by
  have hflen := withPacket_flen_toNat crclen chan s hmax hp
  have hget := fbGet_withPacket crclen chan s hmax hp
  obtain ⟨hhi, hlo⟩ := frameOf_crc_bytes address payload
  refine ⟨rfl, ?alen, ?plen, hc, ?flen, ?preamble, ?crcHi, ?crcLo, ?pcrc, ?behind⟩
  case alen => rw [withPacket_alen_toNat crclen chan s hmax]; exact ⟨hmin, hmax⟩
  case plen => rw [withPacket_plen_toNat crclen chan s hp]; exact hp
  case flen =>
    rw [hflen, withPacket_alen_toNat crclen chan s hmax, withPacket_plen_toNat crclen chan s hp, frameOf_length]; omega
  case preamble => rw [hget, hget]; exact frameOf_preamble hmin
  case crcHi => rw [hflen, hget]; exact hhi
  case crcLo => rw [hflen, hget]; exact hlo
  case pcrc => rw [packetAddress_withPacket crclen chan s hmax hp, packetPayload_withPacket crclen chan s hmax hp]; rfl
  case behind =>
    intro i _ hi
    rw [hget, List.getD_eq_default _ _ (by omega)]

theorem blockInv_withPacket (hmin : 1 ≤ address.length) (hc : crclen = 0x01#8 ∨ crclen = 0x02#8) :
    BlockInv Params.esbf (withPacket address payload crclen chan s) := by
  refine ⟨memoryOf_wf ?_, fun _ => packetHeld_withPacket crclen chan s hmax hp hmin hc, fun h => ?_⟩
  · rw [frameOf_length, esbf_fbSize]; omega
  · have hflen := withPacket_flen_toNat crclen chan s hmax hp
    rw [h, BitVec.toNat_ofNat, frameOf_length] at hflen
    omega

end

/-- Whatever the state before, a framer command's result satisfies the invariant. -/
theorem FramerResult.blockInv {s t : State} (h : FramerResult s t) : BlockInv Params.esbf t := by
  cases h with
  | failed code hcode => exact blockInv_failedWith s hcode
  | held address payload crclen chan hmin hmax hp hc => exact blockInv_withPacket crclen chan s hmax hp hmin hc

theorem blockInv_respond {s : State} (r : List Byte) (h : BlockInv Params.esbf s) : BlockInv Params.esbf (respond r s) :=
  blockInv_congr h rfl rfl rfl rfl rfl rfl rfl rfl

theorem blockInv_loadCrc {s : State} (v : Half) (h : BlockInv Params.esbf s) : BlockInv Params.esbf (loadCrc v s) :=
  blockInv_congr h rfl rfl rfl rfl rfl rfl rfl rfl

theorem blockInv_takeEvent {s : State} (rest : List HostEvent) (h : BlockInv Params.esbf s) :
    BlockInv Params.esbf (takeEvent rest s) :=
  blockInv_congr h rfl rfl rfl rfl rfl rfl rfl rfl

/-- Every command keeps the invariant: the CRC unit, `FRM.READ` and `FRM.INFO` leave the framer's state, and the two large commands
leave a `FramerResult`. -/
theorem exec_keeps_blockInv {i : Instr} {s t : State} (hinv : BlockInv Params.esbf s) (h : exec i s = .next t) :
    BlockInv Params.esbf t := by
  cases i with
  | crcInit => cases h; exact blockInv_loadCrc _ hinv
  | crcLoad hi lo => cases h; exact blockInv_loadCrc _ hinv
  | crcUpdb data => cases h; exact blockInv_loadCrc _ hinv
  | crcUpdn data bits => cases h; exact blockInv_loadCrc _ hinv
  | crcRead => cases h; exact blockInv_respond _ hinv
  | frmBuild blob => exact (build_framerResult (outcomeOf_eq_next.mp h)).blockInv
  | frmCheck alen crclen raw => exact (check_framerResult (outcomeOf_eq_next.mp h)).blockInv
  | frmRead =>
    obtain ⟨_, rfl⟩ := readFrame_eq_ok (outcomeOf_eq_next.mp h)
    exact blockInv_respond _ hinv
  | frmInfo => cases h; exact blockInv_respond _ hinv

theorem runCommand_keeps_blockInv {cmd : List Byte} {s t : State} (hinv : BlockInv Params.esbf s)
    (h : runCommand cmd s = .next t) : BlockInv Params.esbf t := by
  obtain ⟨i, _, hrun⟩ | ⟨_, _, hrun⟩ := runCommand_cases cmd s
  · exact exec_keeps_blockInv hinv (hrun ▸ h)
  · rw [hrun] at h
    cases h
    exact blockInv_respond _ hinv

/-- Settles O45, by the three kinds of step: waiting, reset, a command. -/
theorem stepKeepsInvariant : Obligations.StepKeepsInvariant := by
  unfold Obligations.StepKeepsInvariant
  intro s t hinv h
  obtain ⟨_, hstep⟩ | ⟨rest, _, hstep⟩ | ⟨opcode, operands, rest, _, hstep⟩ := step_cases s
  · rw [hstep] at h
    cases h
    exact hinv
  · rw [hstep] at h
    cases h
    exact blockInv_applyReset _
  · exact runCommand_keeps_blockInv (blockInv_takeEvent rest hinv) (hstep ▸ h)

/-! ### Reset (R27) -/

/-- Settles O42: every register by its reset lemma; the frame buffer lists nothing, so every offset reads as `0x00`. -/
theorem resetValues : Obligations.ResetValues := by
  unfold Obligations.ResetValues
  refine ⟨reset_crc, reset_alen, reset_plen, reset_crclen, reset_chan, reset_pcrc, reset_flen, reset_fstat, ?_, fun i _ => ?_⟩
  · simp [holdsPacket]
  · rw [reset_fb, fbGet_nil]

end Machine
end Sys2Proof
end

section
/-! PROOFS. The statements about the command encoding (30_encoding.md): decoding agrees with encoding (R55), illegal commands (R51,
R52), the bytes that change no result (R53, R54), the one response per command (R56), the pseudo-commands (R58). -/

namespace Sys2Proof
namespace Machine

/-! ### Decoding and encoding (R50, R55) -/

theorem instr_wf (i : Instr) : i.wf = true := by cases i <;> rfl

/-- The per-command statements of `EncodedShape`, for every command. -/
theorem encodedShape (i : Instr) : Laws.EncodedShape.Statement i := by
  cases i with
  | crcInit => exact Laws.EncodedShape.crcInit
  | crcLoad hi lo => exact Laws.EncodedShape.crcLoad hi lo
  | crcUpdb data => exact Laws.EncodedShape.crcUpdb data
  | crcUpdn data bits => exact Laws.EncodedShape.crcUpdn data bits
  | crcRead => exact Laws.EncodedShape.crcRead
  | frmBuild blob => exact Laws.EncodedShape.frmBuild blob
  | frmCheck alen crclen raw => exact Laws.EncodedShape.frmCheck alen crclen raw
  | frmRead => exact Laws.EncodedShape.frmRead
  | frmInfo => exact Laws.EncodedShape.frmInfo

/-- A command's encoding is the opcode of its operation's row and then its operands, of a length that the row's format allows. -/
theorem encode_of_row {row : OpcodeRow} {i : Instr} (hr : row ∈ opcodeMap) (hop : opOf i = row.op) :
    encode i = row.opcode :: (encode i).tail ∧ row.format.lengthOk (encode i).length = true := by
  obtain ⟨row', hr', hop', hhead, hlen⟩ := encodedShape i (instr_wf i)
  obtain rfl := opcodeMap_unique row' hr' row hr (.inr (hop'.trans hop))
  exact ⟨(List.cons_head?_tail hhead).symm, hlen⟩

theorem decode_eq_ok_iff {cmd : List Byte} {i : Instr} : decode cmd = .ok i ↔ encode i = cmd := by
  constructor
  · intro h
    obtain ⟨b, args, row, rfl, hrow, hargs⟩ := decode_eq_ok h
    obtain ⟨hmem, rfl⟩ := opcodeRow_mem hrow
    obtain ⟨hop, rfl⟩ := operandsOf_eq_some_iff.mp hargs
    exact (encode_of_row hmem hop).1
  · rintro rfl
    obtain ⟨row, hmem, hop, _⟩ := encodedShape i (instr_wf i)
    rw [(encode_of_row hmem hop.symm).1]
    exact decode_ok (opcodeRow_of_mem row hmem) (operandsOf_eq_some_iff.mpr ⟨hop.symm, rfl⟩)

/-- Settles O37: `decode_eq_ok_iff` is the agreement; totality is the choice the decoder makes, first by the opcode's row and then by
the operand bytes. -/
theorem decodeAgreesWithEncode : Obligations.DecodeAgreesWithEncode := by
  unfold Obligations.DecodeAgreesWithEncode
  refine ⟨fun cmd i => ?agrees, fun opcode operands => ?total, rfl⟩
  case agrees => rw [decode_eq_ok_iff, and_iff_right (instr_wf i)]
  case total =>
    cases hrow : opcodeRow opcode with
    | none => exact .inr (.inl ⟨decode_reserved hrow, rfl⟩)
    | some row =>
      cases hargs : operandsOf row.op operands with
      | some i => exact .inl ⟨i, decode_ok hrow hargs⟩
      | none =>
        exact .inr (.inr ⟨decode_wrongLength hrow hargs, row, rfl, operandsOf_eq_none (opcodeRow_mem hrow).1 hargs⟩)

/-! ### The bytes that change no result (R53, R54) -/

/-- What stands before a slice matters by its length alone. -/
theorem slice_behind_congr {l l' : List Byte} (s : List Byte) {a b : Nat} (hl : l.length = l'.length) (ha : l.length ≤ a) :
    slice (l ++ s) a b = slice (l' ++ s) a b := by
  have ha' : l'.length ≤ a := by omega
  have hdrop : (l ++ s).drop a = (l' ++ s).drop a := by
    rw [List.drop_append, List.drop_append, List.drop_eq_nil_of_le ha, List.drop_eq_nil_of_le ha', hl]
  unfold slice
  rw [hdrop, List.length_append, List.length_append, hl]

/-- Assembly reads of a blob its address, its payload and its channel (R84 to R91). -/
theorem assemble_congr {p : Params} {blob blob' : List Byte} {alen plen : Byte} (crclen : Byte) (s : State)
    (haddress : blobAddress blob alen = blobAddress blob' alen) (hpayload : blobPayload blob alen plen = blobPayload blob' alen plen)
    (hchan : blobChannel blob = blobChannel blob') :
    assemble p blob alen plen crclen s = assemble p blob' alen plen crclen s := by
  unfold assemble
  rw [haddress, hpayload, hchan]

theorem build_reserved_bytes (p : Params) (chan alen plen crclen q n q' n' : Byte) (rest : List Byte) (s : State) :
    build p (chan :: alen :: plen :: q :: n :: crclen :: rest) s = build p (chan :: alen :: plen :: q' :: n' :: crclen :: rest) s := by
  have hslice (a b : Nat) (ha : blobFixed ≤ a) :
      slice (chan :: alen :: plen :: q :: n :: crclen :: rest) a b = slice (chan :: alen :: plen :: q' :: n' :: crclen :: rest) a b :=
    slice_behind_congr (l := [chan, alen, plen, q, n, crclen]) (l' := [chan, alen, plen, q', n', crclen]) rest rfl ha
  rw [build_fields, build_fields,
    assemble_congr crclen (invalidate s) (hslice _ _ (Nat.le_refl _)) (hslice _ _ (Nat.le_add_right _ _)) rfl]

theorem build_excess_bytes {p : Params} {chan alen plen q n crclen : Byte} {rest : List Byte} (extra : List Byte) (s : State)
    (h : alen.toNat + plen.toNat ≤ rest.length) :
    build p (chan :: alen :: plen :: q :: n :: crclen :: (rest ++ extra)) s =
      build p (chan :: alen :: plen :: q :: n :: crclen :: rest) s := by
  have hslice (a b : Nat) (hab : a ≤ b) (hb : b ≤ blobFixed + rest.length) :
      slice (chan :: alen :: plen :: q :: n :: crclen :: (rest ++ extra)) a b =
        slice (chan :: alen :: plen :: q :: n :: crclen :: rest) a b :=
    slice_append_right (s := chan :: alen :: plen :: q :: n :: crclen :: rest) extra hab
      (by simp only [blobFixed] at hb; simp only [List.length_cons]; omega)
  have hlen : ¬ (rest ++ extra).length < alen.toNat + plen.toNat := by rw [List.length_append]; omega
  rw [build_fields, build_fields, if_neg hlen, if_neg (Nat.not_lt.mpr h),
    assemble_congr crclen (invalidate s) (hslice _ _ (by omega) (by omega)) (hslice _ _ (by omega) (by omega)) rfl]

theorem check_excess_bytes {p : Params} {alen crclen : Byte} {raw : List Byte} (extra : List Byte) (s : State)
    (h : alen.toNat + 14 ≤ raw.length) : check p alen crclen (raw ++ extra) s = check p alen crclen raw s := by
  have haddress : rawAddress (raw ++ extra) alen = rawAddress raw alen := slice_append_right extra (by omega) (by omega)
  have hpayload : rawPayload (raw ++ extra) alen = rawPayload raw alen :=
    slice_append_right extra (by omega) (by simp only [parsePlen]; omega)
  have hhi : rawCrcHi (raw ++ extra) alen = rawCrcHi raw alen := byteAt_append_right extra (by simp only [parsePlen]; omega)
  have hlo : rawCrcLo (raw ++ extra) alen = rawCrcLo raw alen := byteAt_append_right extra (by simp only [parsePlen]; omega)
  have hcheck : checkFrame p alen crclen (raw ++ extra) (invalidate s) = checkFrame p alen crclen raw (invalidate s) := by
    unfold checkFrame
    rw [haddress, hpayload, hhi, hlo]
  have hlen : ¬ (raw ++ extra).length < alen.toNat + 14 := by rw [List.length_append]; omega
  rw [check_eq, check_eq, if_neg hlen, if_neg (Nat.not_lt.mpr h), hcheck]

/-- Settles O18: the two commands read the address, the payload and the CRC bytes at offsets that the named bytes do not reach. -/
theorem reservedAndExcessBytesIgnored : Obligations.ReservedAndExcessBytesIgnored := by
  unfold Obligations.ReservedAndExcessBytesIgnored
  refine ⟨?reserved, ?excessBlob, ?excessRaw⟩
  case reserved =>
    intro chan alen plen crclen q n q' n' rest s
    exact congrArg outcomeOf (build_reserved_bytes Params.esbf chan alen plen crclen q n q' n' rest s)
  case excessBlob =>
    intro chan alen plen q n crclen rest extra s h
    exact congrArg outcomeOf (build_excess_bytes extra s h)
  case excessRaw =>
    intro alen crclen raw extra s h
    exact congrArg outcomeOf (check_excess_bytes extra s (by omega))

/-! ### The one response of a command (R56, R123) -/

/-- R56 of one command between two states: one response more, an error code of the command alone or its success response. -/
def Answers (i : Instr) (s t : State) : Prop :=
  ∃ r : List Byte, t.responses = s.responses ++ [r] ∧ r ≠ [] ∧ ((∃ code ∈ errorCodesOf i, r = [code]) ∨ r = successResponse i t)

theorem successResponse_ne_nil (i : Instr) (t : State) : successResponse i t ≠ [] := by
  cases i <;> exact List.cons_ne_nil _ _

theorem Answers.success {i : Instr} {s t : State} (h : t.responses = s.responses ++ [successResponse i t]) : Answers i s t :=
  ⟨_, h, successResponse_ne_nil i t, .inr rfl⟩

theorem Answers.error {i : Instr} {s t : State} {code : Byte} (hc : code ∈ errorCodesOf i)
    (h : t.responses = s.responses ++ [[code]]) : Answers i s t :=
  ⟨_, h, List.cons_ne_nil _ _, .inl ⟨code, hc, rfl⟩⟩

/-- The response bytes read from the frame buffer as R56 writes them. -/
theorem fbBytes_from_zero (m : Memory) (n : Nat) : fbBytes m 0 n = (List.range n).map (fbGet m) := by
  simp [fbBytes_eq_map]

/-- Completing a frame answers the frame it holds (R91, R107). -/
theorem holdPacket_response {alen plen crclen chan : Byte} {c : Half} {m : Memory} {s t : State}
    (h : holdPacket Params.esbf alen plen crclen chan c m s = .ok t) :
    t.responses = s.responses ++ [0x00#8 :: (List.range t.flen.toNat).map (fbGet t.fb)] := by
  obtain ⟨hfit, rfl⟩ := holdPacket_eq_ok h
  rw [esbf_fbSize] at hfit
  have hflen : (BitVec.ofNat 16 (frameLength alen.toNat plen.toNat)).toNat = frameLength alen.toNat plen.toNat := by
    rw [BitVec.toNat_ofNat]; omega
  simp only [hflen, fbBytes_from_zero, statusOk]

theorem assemble_eq_ok {p : Params} {blob : List Byte} {alen plen crclen : Byte} {s t : State}
    (h : assemble p blob alen plen crclen s = .ok t) :
    ∃ chan c m, holdPacket p alen plen crclen chan c m s = .ok t := by
  unfold assemble at h
  obtain ⟨_, _, h⟩ := except_bind_eq_ok h
  obtain ⟨_, _, h⟩ := except_bind_eq_ok h
  obtain ⟨_, _, h⟩ := except_bind_eq_ok h
  obtain ⟨c, _, h⟩ := except_bind_eq_ok h
  obtain ⟨m, _, h⟩ := except_bind_eq_ok h
  obtain ⟨chan, _, h⟩ := except_bind_eq_ok h
  exact ⟨chan, c, m, h⟩

theorem checkFrame_eq_ok {p : Params} {alen crclen : Byte} {raw : List Byte} {s t : State}
    (h : checkFrame p alen crclen raw s = .ok t) :
    t = raise .crcMismatch s ∨ ∃ c m, holdPacket p alen (BitVec.ofNat 8 parsePlen) crclen 0x00#8 c m s = .ok t := by
  unfold checkFrame at h
  obtain ⟨_, _, h⟩ := except_bind_eq_ok h
  obtain ⟨_, _, h⟩ := except_bind_eq_ok h
  obtain ⟨_, _, h⟩ := except_bind_eq_ok h
  obtain ⟨_, _, h⟩ := except_bind_eq_ok h
  dsimp only at h
  split at h
  · obtain ⟨_, _, h⟩ := except_bind_eq_ok h
    obtain ⟨m, _, h⟩ := except_bind_eq_ok h
    exact .inr ⟨_, m, h⟩
  · injection h with h
    exact .inl h.symm

theorem build_answers {blob : List Byte} {s t : State} (h : build Params.esbf blob s = .ok t) : Answers (.frmBuild blob) s t := by
  obtain ⟨_, rfl⟩ | ⟨_, _, _, _, _, _, _, rfl, ⟨_, rfl⟩ | ⟨_, _, rfl⟩ | ⟨_, _, hasm⟩⟩ := build_cases h
  · exact .error (code := 0x01#8) (by simp [errorCodesOf]) (raise_responses _ _)
  · exact .error (code := 0x01#8) (by simp [errorCodesOf]) (raise_responses _ _)
  · exact .error (code := 0x02#8) (by simp [errorCodesOf]) (raise_responses _ _)
  · obtain ⟨_, _, _, hhold⟩ := assemble_eq_ok hasm
    exact .success (holdPacket_response hhold)

theorem check_answers {alen crclen : Byte} {raw : List Byte} {s t : State} (h : check Params.esbf alen crclen raw s = .ok t) :
    Answers (.frmCheck alen crclen raw) s t := by
  obtain ⟨_, rfl⟩ | ⟨_, _, rfl⟩ | ⟨_, _, hcheck⟩ := check_cases h
  · exact .error (code := 0x01#8) (by simp [errorCodesOf]) (raise_responses _ _)
  · exact .error (code := 0x02#8) (by simp [errorCodesOf]) (raise_responses _ _)
  · obtain rfl | ⟨_, _, hhold⟩ := checkFrame_eq_ok hcheck
    · exact .error (code := 0x03#8) (by simp [errorCodesOf]) (raise_responses _ _)
    · exact .success (holdPacket_response hhold)

theorem readFrame_answers {s t : State} (h : readFrame Params.esbf s = .ok t) : Answers .frmRead s t := by
  obtain ⟨_, rfl⟩ := readFrame_eq_ok h
  refine .success ?_
  rw [respond_responses, fbBytes_from_zero]
  rfl

/-- Every command answers as R56 says. -/
theorem exec_answers {i : Instr} {s t : State} (h : exec i s = .next t) : Answers i s t := by
  cases i with
  | crcInit => cases h; exact .success (loadCrc_responses _ _)
  | crcLoad hi lo => cases h; exact .success (loadCrc_responses _ _)
  | crcUpdb data => cases h; exact .success (loadCrc_responses _ _)
  | crcUpdn data bits => cases h; exact .success (loadCrc_responses _ _)
  | crcRead => cases h; exact .success (respondCrc_responses _)
  | frmBuild blob => exact build_answers (outcomeOf_eq_next.mp h)
  | frmCheck alen crclen raw => exact check_answers (outcomeOf_eq_next.mp h)
  | frmRead => exact readFrame_answers (outcomeOf_eq_next.mp h)
  | frmInfo => cases h; exact .success (respond_responses _ _)

theorem runCommand_of_decode_ok {cmd : List Byte} {i : Instr} (s : State) (h : decode cmd = .ok i) : runCommand cmd s = exec i s := by
  simp [runCommand, h]

theorem runCommand_of_decode_error {cmd : List Byte} {e : Illegal} (s : State) (h : decode cmd = .error e) :
    runCommand cmd s = .next (raise .illegalCommand s) := by
  simp [runCommand, h]

/-- Settles O33, by what the decoder answers: an illegal command raises its error, any other is `exec_answers`. -/
theorem everyCommandAnswersOnce : Obligations.EveryCommandAnswersOnce := by
  unfold Obligations.EveryCommandAnswersOnce
  intro s t opcode operands rest hd hstep
  rw [step_command hd] at hstep
  refine ⟨fun reason he => ?illegal, fun i hi => ?legal⟩
  case illegal =>
    rw [runCommand_of_decode_error _ he] at hstep
    cases hstep
    exact raise_responses _ _
  case legal =>
    rw [runCommand_of_decode_ok _ hi] at hstep
    exact (exec_answers hstep : Answers i (takeEvent rest s) t)

/-! ### Illegal commands (R51, R52) -/

theorem answeredIllegal_of_decode_error {opcode : Byte} {operands : List Byte} {e : Illegal}
    (h : decode (opcode :: operands) = .error e) : AnsweredIllegal opcode operands := by
  intro s rest hd
  rw [step_command hd, runCommand_of_decode_error _ h]
  rfl

/-- The opcodes of R50 lie in two ranges. -/
theorem opcodeMap_ranges :
    ∀ r ∈ opcodeMap, (0x01 ≤ r.opcode.toNat ∧ r.opcode.toNat ≤ 0x05) ∨ (0x10 ≤ r.opcode.toNat ∧ r.opcode.toNat ≤ 0x13) := by
  decide

/-- Settles O35: an opcode outside the two ranges of R50 has no row. -/
theorem reservedOpcodesAreIllegal : Obligations.ReservedOpcodesAreIllegal := by
  unfold Obligations.ReservedOpcodesAreIllegal
  intro opcode operands hreserved
  cases hrow : opcodeRow opcode with
  | none => exact answeredIllegal_of_decode_error (decode_reserved hrow)
  | some row =>
    obtain ⟨hmem, rfl⟩ := opcodeRow_mem hrow
    have hrange := opcodeMap_ranges row hmem
    omega

/-- A length that the format of the opcode's row does not allow is illegal: a command with that row would be encoded in such a
length. -/
theorem answeredIllegal_of_length {row : OpcodeRow} {operands : List Byte} (hr : row ∈ opcodeMap)
    (hlen : row.format.lengthOk (operands.length + 1) = false) : AnsweredIllegal row.opcode operands := by
  cases hargs : operandsOf row.op operands with
  | none => exact answeredIllegal_of_decode_error (decode_wrongLength (opcodeRow_of_mem row hr) hargs)
  | some i =>
    obtain ⟨hop, rfl⟩ := operandsOf_eq_some_iff.mp hargs
    obtain ⟨hencode, hok⟩ := encode_of_row hr hop
    rw [hencode, List.length_cons, hlen] at hok
    cases hok

/-- Settles O36: each opcode by its row of R50; `FRM.BUILD` with any operand bytes is the encoding of a command. -/
theorem wrongLengthsAreIllegal : Obligations.WrongLengthsAreIllegal := by
  unfold Obligations.WrongLengthsAreIllegal
  refine ⟨fun opcode operands h => ?illegal, fun blob s rest hd => ?build⟩
  case illegal =>
    obtain ⟨hop, hlen⟩ | ⟨rfl, hlen⟩ | ⟨hop, hlen⟩ | ⟨rfl, hlen⟩ := h
    · have hc0 : Format.c0.lengthOk (operands.length + 1) = false := beq_false_of_ne hlen
      obtain rfl | rfl | rfl | rfl := hop
      · exact answeredIllegal_of_length (row := ⟨0x01#8, .crcInit, .c0⟩) (by decide) hc0
      · exact answeredIllegal_of_length (row := ⟨0x05#8, .crcRead, .c0⟩) (by decide) hc0
      · exact answeredIllegal_of_length (row := ⟨0x12#8, .frmRead, .c0⟩) (by decide) hc0
      · exact answeredIllegal_of_length (row := ⟨0x13#8, .frmInfo, .c0⟩) (by decide) hc0
    · exact answeredIllegal_of_length (row := ⟨0x03#8, .crcUpdb, .c1⟩) (by decide) (beq_false_of_ne hlen)
    · have hc2 : Format.c2.lengthOk (operands.length + 1) = false := beq_false_of_ne hlen
      obtain rfl | rfl := hop
      · exact answeredIllegal_of_length (row := ⟨0x02#8, .crcLoad, .c2⟩) (by decide) hc2
      · exact answeredIllegal_of_length (row := ⟨0x04#8, .crcUpdn, .c2⟩) (by decide) hc2
    · exact answeredIllegal_of_length (row := ⟨0x11#8, .frmCheck, .ck⟩) (by decide) (decide_eq_false (by omega))
  case build =>
    have hdecode : decode (0x10#8 :: blob) = .ok (.frmBuild blob) := decode_eq_ok_iff.mpr rfl
    rw [step_command hd, runCommand_of_decode_ok _ hdecode]
    rfl

/-! ### The pseudo-commands (R58) -/

theorem fieldBlob_of_le {address payload : List Byte} (chan crclen : Byte) (ha : address.length ≤ 255) (hp : payload.length ≤ 255) :
    fieldBlob chan crclen address payload =
      some ([chan, BitVec.ofNat 8 address.length, BitVec.ofNat 8 payload.length, 0x00#8, 0x00#8, crclen] ++ address ++ payload) :=
  if_pos ⟨ha, hp⟩

/-- Settles O49: the expansions are the arms of `assembleTokens`; the two encodings of one update have one equation. -/
theorem pseudoCommandsExpand : Obligations.PseudoCommandsExpand := by
  unfold Obligations.PseudoCommandsExpand
  refine ⟨fun _ => rfl, fun _ _ => rfl, ?bit, fun _ _ => rfl, ?fields, ?updb⟩
  case bit => intro b; cases b <;> rfl
  case fields =>
    intro chan crclen address payload ha hp
    exact congrArg (Option.map (fun blob => [Instr.frmBuild blob])) (fieldBlob_of_le chan crclen ha hp)
  case updb => intro d s; rw [exec_crcUpdb, exec_crcUpdn]

end Machine
end Sys2Proof
end

section
/-! PROOFS. The statements about the CRC unit (40_crc.md): the function `crc_update` (R66 to R70), the CRC commands (R72 to R76), the
host's checksum of a frame (R77), and that the framer leaves `CRC` (R78). The bit counts and the compositions turn on one fact: a data
byte's low `8 - k` bits pass through `k` iterations as a plain shift (`crcSteps_highByte_split`). -/

namespace Sys2Proof
namespace Machine

/-! ### Iterations of `step` (R66, R67) -/

theorem crcStep_toNat (c : Half) :
    (crcStep c).toNat = (2 * c.toNat % 65536) ^^^ (if 32768 ≤ c.toNat then 0x1021 else 0) := by
  have htop : c.getLsbD 15 = decide (32768 ≤ c.toNat) := BitVec.msb_eq_decide c
  have hshift : (c <<< 1).toNat = 2 * c.toNat % 65536 := by rw [BitVec.toNat_shiftLeft, Nat.shiftLeft_eq, Nat.mul_comm]
  unfold crcStep
  rw [htop]
  by_cases h : 32768 ≤ c.toNat
  · rw [if_pos (decide_eq_true h), if_pos h, BitVec.toNat_xor, hshift]; rfl
  · rw [if_neg (by simpa using h), if_neg h, hshift, Nat.xor_zero]

theorem crcSteps_eq_iterate (n : Nat) (c : Half) : crcSteps n c = crcStep^[n] c := by
  induction n generalizing c with
  | zero => rfl
  | succ n ih => rw [crcSteps_succ, ih, Function.iterate_succ_apply]

theorem crcSteps_succ_last (n : Nat) (c : Half) : crcSteps (n + 1) c = crcStep (crcSteps n c) := by
  rw [crcSteps_add]; rfl

/-- Iterations that meet no set bit in bit 15 are plain shifts. -/
theorem crcSteps_eq_shift {n : Nat} {c : Half} (h : ∀ i, 16 ≤ i + n → c.getLsbD i = false) : crcSteps n c = c <<< n := by
  induction n with
  | zero => rw [crcSteps_none, BitVec.shiftLeft_zero]
  | succ n ih =>
    have htop : (c <<< n).getLsbD 15 = false := by rw [BitVec.getLsbD_shiftLeft, h (15 - n) (by omega), Bool.and_false]
    rw [crcSteps_succ_last, ih (fun i hi => h i (by omega)), crcStep, htop, if_neg Bool.false_ne_true, BitVec.shiftLeft_add]

/-! ### A data byte in the high half, and its bits (R65, R68) -/

/-- `data << 8`, the data byte as R65 feeds it. -/
def highByte (d : Byte) : Half := d.setWidth 16 <<< 8

theorem crcUpdate_eq (c : Half) (d bits : Byte) : crcUpdate c d bits = crcSteps bits.toNat (c ^^^ highByte d) := rfl

theorem crcUpdate_ofNat {n : Nat} (c : Half) (d : Byte) (h : n ≤ 255) :
    crcUpdate c d (BitVec.ofNat 8 n) = crcSteps n (c ^^^ highByte d) := by
  rw [crcUpdate_eq, BitVec.toNat_ofNat, Nat.mod_eq_of_lt (by omega)]

/-- A zero data byte feeds zero bits only (R67). -/
theorem crcUpdate_zero_ofNat {n : Nat} (c : Half) (h : n ≤ 255) : crcUpdate c 0x00#8 (BitVec.ofNat 8 n) = crcSteps n c := by
  rw [crcUpdate_ofNat c _ h, show highByte 0x00#8 = 0x0000#16 from rfl, BitVec.xor_zero]

theorem getLsbD_topBits (d : Byte) (k i : Nat) : (topBits d k).getLsbD i = (d.getLsbD i && decide (8 - k ≤ i)) := by
  have hones (j : Nat) : (0xFF#8).getLsbD j = decide (j < 8) := BitVec.getLsbD_allOnes
  rw [topBits, BitVec.getLsbD_and, BitVec.getLsbD_shiftLeft, hones]
  by_cases hi : i < 8
  · grind
  · rw [BitVec.getLsbD_of_ge d i (Nat.le_of_not_lt hi), Bool.false_and, Bool.false_and]

theorem getLsbD_lowBits (d : Byte) (k i : Nat) : (lowBits d k).getLsbD i = (d.getLsbD i && decide (k + i < 8)) := by
  have hones (j : Nat) : (0xFF#8).getLsbD j = decide (j < 8) := BitVec.getLsbD_allOnes
  rw [lowBits, BitVec.getLsbD_and, BitVec.getLsbD_ushiftRight, hones]

theorem getLsbD_highByte (d : Byte) (i : Nat) : (highByte d).getLsbD i = (decide (8 ≤ i) && d.getLsbD (i - 8)) := by
  rw [highByte, BitVec.getLsbD_shiftLeft, BitVec.getLsbD_setWidth]
  by_cases hi : i < 16
  · grind
  · rw [BitVec.getLsbD_of_ge d (i - 8) (by omega)]; simp

theorem topBits_xor_lowBits (d : Byte) (k : Nat) : topBits d k ^^^ lowBits d k = d := by
  apply BitVec.eq_of_getLsbD_eq
  intro i hi
  rw [BitVec.getLsbD_xor, getLsbD_topBits, getLsbD_lowBits]
  by_cases h : 8 - k ≤ i
  · simp [h, show ¬ k + i < 8 by omega]
  · simp [h, show k + i < 8 by omega]

theorem highByte_lowBits_shift (d : Byte) (k : Nat) : highByte (lowBits d k) <<< k = highByte (d <<< k) := by
  apply BitVec.eq_of_getLsbD_eq
  intro i hi
  rw [BitVec.getLsbD_shiftLeft, getLsbD_highByte, getLsbD_lowBits, getLsbD_highByte, BitVec.getLsbD_shiftLeft]
  grind

/-- Fewer top bits of the top bits are the top bits. -/
theorem topBits_topBits {j k : Nat} (d : Byte) (h : j ≤ k) : topBits (topBits d k) j = topBits d j := by
  apply BitVec.eq_of_getLsbD_eq
  intro i _
  rw [getLsbD_topBits, getLsbD_topBits, getLsbD_topBits]
  grind

theorem topBits_eight (d : Byte) : topBits d 8 = d := BitVec.and_allOnes

/-- The last of the top `k + 1` bits, moved to bit 7. -/
theorem topBits_succ_shift {k : Nat} (d : Byte) (hk : k < 8) :
    topBits d (k + 1) <<< k = if d.getLsbD (7 - k) then 0x80#8 else 0x00#8 := by
  have hbit7 : ∀ i < 8, (0x80#8).getLsbD i = decide (i = 7) := by decide
  apply BitVec.eq_of_getLsbD_eq
  intro i hi
  rw [BitVec.getLsbD_shiftLeft, getLsbD_topBits, apply_ite (fun v : Byte => v.getLsbD i), hbit7 i hi, BitVec.getLsbD_zero]
  by_cases h7 : i = 7
  · subst h7
    simp [show k ≤ 7 by omega]
  · grind

/-- `k` iterations consume the top `k` bits of a data byte and shift the others up. -/
theorem crcSteps_highByte_split (k : Nat) (c : Half) (d : Byte) :
    crcSteps k (c ^^^ highByte d) = crcSteps k (c ^^^ highByte (topBits d k)) ^^^ highByte (d <<< k) := by
  have hlow : crcSteps k (highByte (lowBits d k)) = highByte (d <<< k) := by
    rw [crcSteps_eq_shift, highByte_lowBits_shift]
    intro i hi
    rw [getLsbD_highByte, getLsbD_lowBits]
    grind
  calc crcSteps k (c ^^^ highByte d)
      = crcSteps k (c ^^^ highByte (topBits d k ^^^ lowBits d k)) := by rw [topBits_xor_lowBits]
    _ = crcSteps k ((c ^^^ highByte (topBits d k)) ^^^ highByte (lowBits d k)) := by
        rw [highByte, highByte_xor, BitVec.xor_assoc]; rfl
    _ = crcSteps k (c ^^^ highByte (topBits d k)) ^^^ highByte (d <<< k) := by rw [crcSteps_xor, hlow]

theorem oneBit_eq (c : Half) (b : Bool) : oneBit c b = crcStep (c ^^^ (if b then 0x8000#16 else 0x0000#16)) := by
  cases b <;> rfl

/-- The update by the top `k` bits alone is `k` one-bit updates from bit 7 on (R68, R69). -/
theorem crcUpdate_topBits {k : Nat} (crc : Half) (d : Byte) (hk : k ≤ 8) :
    crcUpdate crc (topBits d k) (BitVec.ofNat 8 k) = (List.range k).foldl (fun c j => oneBit c (d.getLsbD (7 - j))) crc := by
  induction k with
  | zero => rw [crcUpdate_ofNat _ _ (by omega)]; simp [topBits, highByte]
  | succ k ih =>
    have hbit : highByte (if d.getLsbD (7 - k) then 0x80#8 else 0x00#8) = if d.getLsbD (7 - k) then 0x8000#16 else 0x0000#16 := by
      cases d.getLsbD (7 - k) <;> rfl
    rw [List.range_succ, List.foldl_append, ← ih (by omega), List.foldl_cons, List.foldl_nil, oneBit_eq,
      crcUpdate_ofNat _ _ (by omega), crcUpdate_ofNat _ _ (by omega), crcSteps_succ_last, crcSteps_highByte_split,
      topBits_topBits d (Nat.le_succ k), topBits_succ_shift d (by omega), hbit]

/-! ### The statements about `crc_update` (40_crc.md section 1) -/

/-- Settles O1: `crcStep` in numbers, and the model's recursion as the library's iterate. -/
theorem crcUpdateIsIteratedStep : Obligations.CrcUpdateIsIteratedStep := by
  unfold Obligations.CrcUpdateIsIteratedStep
  exact ⟨crcStep_toNat, fun _ _ _ => crcSteps_eq_iterate _ _⟩

/-- `8 + k` iterations are the byte-granular update and `k` further ones (R67). -/
theorem crcUpdate_eight_add {k : Nat} (crc : Half) (data : Byte) (hk : 8 + k ≤ 255) :
    crcUpdate crc data (BitVec.ofNat 8 (8 + k)) = crcSteps k (crcUpdate crc data 0x08#8) := by
  rw [crcUpdate_ofNat _ _ hk, crcSteps_add]
  rfl

/-- Settles O2, by `crcSteps_add`. -/
theorem crcUpdateBitCounts : Obligations.CrcUpdateBitCounts := by
  unfold Obligations.CrcUpdateBitCounts
  refine ⟨fun _ _ _ => rfl, fun _ _ => rfl, fun crc data k hk => ⟨?_, crcUpdate_eight_add crc data hk⟩⟩
  rw [crcUpdate_eight_add crc data hk, crcUpdate_zero_ofNat _ (by omega)]

/-- The low bits of the data byte stay in the result of a sub-byte update (R68). -/
theorem crcUpdate_low_bits_left {k : Nat} (crc : Half) (data : Byte) (hk : k ≤ 255) :
    crcUpdate crc data (BitVec.ofNat 8 k) =
      crcUpdate crc (topBits data k) (BitVec.ofNat 8 k) ^^^ (((lowBits data k).setWidth 16 <<< 8) <<< k) := by
  rw [crcUpdate_ofNat _ _ hk, crcUpdate_ofNat _ _ hk, crcSteps_highByte_split, ← highByte_lowBits_shift]
  rfl

/-- Settles O3: the low bits by `crcSteps_highByte_split`, the completion by `crcSteps_add`, the one-bit updates by
`crcUpdate_topBits`. -/
theorem crcSubByteUpdate : Obligations.CrcSubByteUpdate := by
  unfold Obligations.CrcSubByteUpdate
  refine ⟨fun crc data k hk => ⟨crcUpdate_low_bits_left crc data (by omega), ?completes, crcUpdate_topBits crc data (by omega)⟩,
    fun _ => rfl, by decide, by decide⟩
  case completes =>
    rw [crcUpdate_zero_ofNat _ (by omega), crcUpdate_ofNat _ _ (by omega), ← crcSteps_add, Nat.add_sub_of_le (by omega)]
    rfl

/-- Settles O4: all eight bits are the case `k = 8` of `crcUpdate_topBits`; the split at `k` is `crcSteps_highByte_split`. -/
theorem crcByteUpdateComposition : Obligations.CrcByteUpdateComposition := by
  unfold Obligations.CrcByteUpdateComposition
  refine ⟨fun crc d => ?eightBits, fun crc d k hk => ?splitAt, oneBit_eq⟩
  case eightBits =>
    have h := crcUpdate_topBits crc d (Nat.le_refl 8)
    rw [topBits_eight] at h
    exact h
  case splitAt =>
    calc crcUpdate crc d 0x08#8
        = crcSteps (k + (8 - k)) (crc ^^^ highByte d) := by rw [Nat.add_sub_of_le hk]; rfl
      _ = crcSteps (8 - k) (crcSteps k (crc ^^^ highByte (topBits d k)) ^^^ highByte (d <<< k)) := by
          rw [crcSteps_add, crcSteps_highByte_split]
      _ = crcUpdate (crcUpdate crc (topBits d k) (BitVec.ofNat 8 k)) (d <<< k) (BitVec.ofNat 8 (8 - k)) := by
          rw [crcUpdate_ofNat _ _ (by omega), crcUpdate_ofNat _ _ (by omega)]

theorem crcBytesFrom_eq_foldl (start : Half) (bytes : List Byte) :
    crcBytesFrom start bytes = bytes.foldl (fun c b => crcUpdate c b 0x08#8) start := by
  induction bytes generalizing start with
  | nil => rfl
  | cons b bytes ih => rw [crcBytesFrom_cons, List.foldl_cons, ih]

/-- Settles O6; the vector is evaluated. -/
theorem crcChainOverBytes : Obligations.CrcChainOverBytes := by
  unfold Obligations.CrcChainOverBytes
  exact ⟨crcBytesFrom_eq_foldl, crcBytesFrom_nil, by decide +kernel⟩

/-! ### Delivering a CRC command (R72 to R76) -/

/-- A delivered encoding of a command is executed with the event taken. -/
theorem step_of_encode {s : State} {opcode : Byte} {operands : List Byte} {rest : List HostEvent} {i : Instr}
    (hd : Delivers s opcode operands rest) (hi : encode i = opcode :: operands) : step s = exec i (takeEvent rest s) := by
  rw [step_command hd, runCommand_of_decode_ok _ (decode_eq_ok_iff.mpr hi)]

/-- A command of format `C0` is illegal with operands (R52). -/
theorem answeredIllegal_c0 {opcode : Byte} {op : Op} {operands : List Byte} (hr : ⟨opcode, op, .c0⟩ ∈ opcodeMap)
    (h : operands ≠ []) : AnsweredIllegal opcode operands :=
  answeredIllegal_of_length hr (beq_false_of_ne (by simpa using h))

/-- A command of format `C2` is illegal without exactly two operand bytes (R52). -/
theorem answeredIllegal_c2 {opcode : Byte} {op : Op} {operands : List Byte} (hr : ⟨opcode, op, .c2⟩ ∈ opcodeMap)
    (h : operands.length ≠ 2) : AnsweredIllegal opcode operands :=
  answeredIllegal_of_length hr (beq_false_of_ne (by omega))

/-- What `CRC.INIT` loads and answers (R72). -/
theorem exec_crcInit_eq (s : State) :
    exec .crcInit s = .next { s with crc := 0xFFFF#16, responses := s.responses ++ [[0x00#8, 0xFF#8, 0xFF#8]] } := by
  have hhi : hi8 0xFFFF#16 = 0xFF#8 := by decide
  have hlo : lo8 0xFFFF#16 = 0xFF#8 := by decide
  rw [exec_crcInit, crcInit, loadCrc, respondCrc, hhi, hlo]
  rfl

/-- Settles O8, by `exec_crcInit_eq`. -/
theorem crcInitCommand : Obligations.CrcInitCommand := by
  unfold Obligations.CrcInitCommand
  refine ⟨exec_crcInit_eq, fun s rest hd => ?_, fun operands h => answeredIllegal_c0 (op := .crcInit) (by decide) h⟩
  rw [step_of_encode (i := .crcInit) hd rfl, exec_crcInit_eq]
  rfl

/-- What `CRC.LOAD` loads and answers, in numbers (R73). -/
theorem exec_crcLoad_eq (hi lo : Byte) (s : State) :
    exec (.crcLoad hi lo) s =
      .next { s with crc := BitVec.ofNat 16 (hi.toNat * 256 + lo.toNat), responses := s.responses ++ [[0x00#8, hi, lo]] } := by
  have hv : BitVec.ofNat 16 (hi.toNat * 256 + lo.toNat) = be16 hi lo := by rw [← be16_toNat, BitVec.ofNat_toNat, BitVec.setWidth_eq]
  rw [exec_crcLoad, hv, loadCrc, respondCrc, hi8_be16, lo8_be16]
  rfl

/-- Settles O9, by `exec_crcLoad_eq`. -/
theorem crcLoadCommand : Obligations.CrcLoadCommand := by
  unfold Obligations.CrcLoadCommand
  refine ⟨exec_crcLoad_eq, fun hi lo s rest hd => ?_, fun operands h => answeredIllegal_c2 (op := .crcLoad) (by decide) h⟩
  rw [step_of_encode (i := .crcLoad hi lo) hd rfl, exec_crcLoad_eq]
  rfl

/-- Settles O11: the command is `exec_crcUpdn`; the corner cases are those of `crc_update` (R67, R68). -/
theorem crcUpdnCommand : Obligations.CrcUpdnCommand := by
  unfold Obligations.CrcUpdnCommand
  refine ⟨fun _ _ _ => rfl, fun data bits s rest hd => step_of_encode (i := .crcUpdn data bits) hd rfl,
    fun operands h => answeredIllegal_c2 (op := .crcUpdn) (by decide) h, fun _ _ => rfl, ?fewer, ?more,
    fun crc data => crcSteps_eq_iterate 255 _, by decide, by decide⟩
  case fewer =>
    intro crc data bits _
    have h := crcUpdate_low_bits_left (k := bits.toNat) crc data (by omega)
    rwa [BitVec.ofNat_toNat, BitVec.setWidth_eq] at h
  case more =>
    intro crc data bits hbits
    obtain ⟨k, hk⟩ : ∃ k, bits.toNat = 8 + k := ⟨bits.toNat - 8, by omega⟩
    have hlt := bits.isLt
    have hb : bits = BitVec.ofNat 8 (8 + k) := by rw [← hk, BitVec.ofNat_toNat, BitVec.setWidth_eq]
    have hsub : bits - 0x08#8 = BitVec.ofNat 8 k := by bv_omega
    rw [hsub, hb, crcUpdate_eight_add _ _ (by omega), crcUpdate_zero_ofNat _ (by omega)]

/-- Settles O12: the response repeats `CRC` and nothing else is new. -/
theorem crcReadCommand : Obligations.CrcReadCommand := by
  unfold Obligations.CrcReadCommand
  refine ⟨fun _ => rfl, fun s rest hd => ?_, fun operands h => answeredIllegal_c0 (op := .crcRead) (by decide) h, rfl⟩
  rw [step_of_encode (i := .crcRead) hd rfl]
  rfl

/-! ### The framer leaves `CRC` (R78) -/

/-- A command that neither reads nor writes `CRC`. -/
def LeavesCrc (command : State → Host.Outcome State Fault Refusal) : Prop :=
  ∀ (s : State) (v : Half),
    command { s with crc := v } = mapNext (fun t => { t with crc := v }) (command s) ∧ ∀ t, command s = .next t → t.crc = s.crc

/-- One effect on every state, which commutes with a change of `CRC` and keeps it. -/
theorem leavesCrc_of_next {command : State → Host.Outcome State Fault Refusal} {f : State → State}
    (h : ∀ s, command s = .next (f s)) (hcomm : ∀ (s : State) (v : Half), f { s with crc := v } = { f s with crc := v })
    (hcrc : ∀ s, (f s).crc = s.crc) : LeavesCrc command := by
  intro s v
  rw [h, h, hcomm]
  refine ⟨rfl, fun t ht => ?_⟩
  cases ht
  exact hcrc s

theorem leavesCrc_of_failedWith {command : State → Except Fault State} {code : Byte}
    (h : ∀ s, command s = .ok (failedWith code s)) : LeavesCrc (fun s => outcomeOf (command s)) :=
  leavesCrc_of_next (fun s => congrArg outcomeOf (h s)) (fun _ _ => rfl) (failedWith_crc · code)

theorem leavesCrc_of_withPacket {command : State → Except Fault State} {address payload : List Byte} {crclen chan : Byte}
    (h : ∀ s, command s = .ok (withPacket address payload crclen chan s)) : LeavesCrc (fun s => outcomeOf (command s)) :=
  leavesCrc_of_next (fun s => congrArg outcomeOf (h s)) (fun _ _ => rfl) (withPacket_crc address payload crclen chan)

/-- Which of its cases `FRM.BUILD` takes is decided by the blob (R82, R83). -/
theorem leavesCrc_frmBuild (blob : List Byte) : LeavesCrc (exec (.frmBuild blob)) := by
  by_cases h6 : blob.length < 6
  · exact leavesCrc_of_failedWith (code := 0x01#8) fun s => build_short h6
  obtain ⟨chan, alen, plen, q, n, crclen, rest, rfl⟩ := blob_fields (Nat.le_of_not_lt h6)
  have hfields := build_fields Params.esbf chan alen plen q n crclen rest
  by_cases hl : rest.length < alen.toNat + plen.toNat
  · exact leavesCrc_of_failedWith (code := 0x01#8) fun s => (hfields s).trans (if_pos hl)
  by_cases hsup : (alenSupported Params.esbf alen && plenSupported Params.esbf plen && crclenSupported crclen) = true
  · obtain ⟨address, payload, extra, rfl, ha, hp⟩ := exists_two_parts (Nat.le_of_not_lt hl)
    have hlens := hsup
    simp only [Bool.and_eq_true, alenSupported_iff, plenSupported_iff, esbf_alenMin, esbf_alenMax, esbf_plenMax] at hlens
    obtain ⟨⟨⟨hmin, hmax⟩, hpmax⟩, _⟩ := hlens
    refine leavesCrc_of_withPacket (address := address) (payload := payload) (crclen := crclen) (chan := chan) fun s => ?_
    rw [hfields, if_neg hl, if_pos hsup]
    exact assemble_parts s chan alen plen q n crclen crclen extra (by omega) ha hp (by rw [esbf_fbSize]; omega)
  · exact leavesCrc_of_failedWith (code := 0x02#8) fun s => by rw [hfields, if_neg hl, if_neg hsup]; rfl

/-- Which of its cases `FRM.CHECK` takes is decided by its operands (R101, R102, R105). -/
theorem leavesCrc_frmCheck (alen crclen : Byte) (raw : List Byte) : LeavesCrc (exec (.frmCheck alen crclen raw)) := by
  have hcases := check_eq Params.esbf alen crclen raw
  by_cases hl : raw.length < alen.toNat + 14
  · exact leavesCrc_of_failedWith (code := 0x01#8) fun s => (hcases s).trans (if_pos hl)
  by_cases hsup : (alenSupported Params.esbf alen && crclenSupported crclen) = true
  · obtain ⟨pre, address, payload, tail, rfl, ha, hp, htail⟩ := exists_raw_parts (Nat.le_of_not_lt hl)
    obtain ⟨hi, lo, extra, rfl⟩ := exists_cons_cons htail
    have hlens := hsup
    simp only [Bool.and_eq_true, alenSupported_iff, esbf_alenMin, esbf_alenMax] at hlens
    obtain ⟨⟨hmin, hmax⟩, _⟩ := hlens
    have hcheck (s : State) := (hcases s).trans ((if_neg hl).trans ((if_pos hsup).trans
      (checkFrame_parts s pre hi lo crclen extra (by omega) ha hp (by rw [esbf_fbSize]; omega))))
    by_cases hmatch : hi = hi8 (frameCrc address payload) ∧ lo = lo8 (frameCrc address payload)
    · exact leavesCrc_of_withPacket fun s => by rw [hcheck, if_pos hmatch]
    · exact leavesCrc_of_failedWith fun s => by rw [hcheck, if_neg hmatch]
  · exact leavesCrc_of_failedWith (code := 0x02#8) fun s => by rw [hcases, if_neg hl, if_neg hsup]; rfl

theorem readFrame_fault {s : State} (h : Params.esbf.fbSize < s.flen.toNat) :
    readFrame Params.esbf s = .error (.outsideFrameBuffer s.flen.toNat) := by
  rw [readFrame, memRead_fault (by omega), except_bind_error, Nat.zero_add]

/-- `FRM.READ` answers or stops by `FLEN` and the frame buffer alone (R112). -/
theorem leavesCrc_frmRead : LeavesCrc (exec .frmRead) := by
  intro s v
  rw [exec_frmRead, exec_frmRead]
  by_cases hb : s.flen.toNat ≤ Params.esbf.fbSize
  · rw [readFrame_ok (s := { s with crc := v }) hb, readFrame_ok hb]
    refine ⟨rfl, fun t ht => ?_⟩
    cases ht
    exact respond_crc s _
  · have hfault := Nat.lt_of_not_le hb
    rw [readFrame_fault (s := { s with crc := v }) hfault, readFrame_fault hfault]
    exact ⟨rfl, fun t ht => by cases ht⟩

theorem leavesCrc_frmInfo : LeavesCrc (exec .frmInfo) :=
  leavesCrc_of_next exec_frmInfo (fun _ _ => rfl) (fun s => respond_crc s _)

/-- Settles O31, command by command. -/
theorem framerLeavesCrcRegister : Obligations.FramerLeavesCrcRegister := by
  unfold Obligations.FramerLeavesCrcRegister
  rintro i s v (⟨blob, rfl⟩ | ⟨alen, crclen, raw, rfl⟩ | rfl | rfl)
  · exact leavesCrc_frmBuild blob s v
  · exact leavesCrc_frmCheck alen crclen raw s v
  · exact leavesCrc_frmRead s v
  · exact leavesCrc_frmInfo s v

/-! ### The host's checksum of a frame (R77) -/

/-- The state after commands of the CRC unit that left `v` in `CRC` and the events `rest` pending, and gave `answers`. -/
def afterCrc (v : Half) (rest : List HostEvent) (answers : List (List Byte)) (s : State) : State :=
  { s with crc := v, pending := rest, responses := s.responses ++ answers }

@[simp] theorem afterCrc_crc (v : Half) (rest : List HostEvent) (answers : List (List Byte)) (s : State) :
    (afterCrc v rest answers s).crc = v := rfl

@[simp] theorem afterCrc_pending (v : Half) (rest : List HostEvent) (answers : List (List Byte)) (s : State) :
    (afterCrc v rest answers s).pending = rest := rfl

theorem afterCrc_afterCrc (v w : Half) (rest rest' : List HostEvent) (answers answers' : List (List Byte)) (s : State) :
    afterCrc w rest' answers' (afterCrc v rest answers s) = afterCrc w rest' (answers ++ answers') s := by
  simp only [afterCrc, List.append_assoc]

/-- One step on a delivered command of the CRC unit, which leaves `v` in `CRC` and answers it (R56). -/
theorem run_crcCommand {s : State} {opcode : Byte} {operands : List Byte} {rest : List HostEvent} {i : Instr} {v : Half}
    (hd : Delivers s opcode operands rest) (hi : encode i = opcode :: operands)
    (hexec : exec i (takeEvent rest s) = .next (loadCrc v (takeEvent rest s))) :
    Host.Core.run Sys2Proof.core 1 s = .next (afterCrc v rest [[0x00#8, hi8 v, lo8 v]] s) :=
  run_succ ((step_of_encode hd hi).trans hexec)

/-- `n` steps, each with one response, leave `v` in `CRC` and the events `rest` pending, and change nothing else. -/
def RunsCrc (n : Nat) (v : Half) (rest : List HostEvent) (s : State) : Prop :=
  ∃ answers : List (List Byte), answers.length = n ∧ Host.Core.run Sys2Proof.core n s = .next (afterCrc v rest answers s)

theorem RunsCrc.of_command {s : State} {opcode : Byte} {operands : List Byte} {rest : List HostEvent} {i : Instr} {v : Half}
    (hd : Delivers s opcode operands rest) (hi : encode i = opcode :: operands)
    (hexec : exec i (takeEvent rest s) = .next (loadCrc v (takeEvent rest s))) : RunsCrc 1 v rest s :=
  ⟨_, rfl, run_crcCommand hd hi hexec⟩

theorem RunsCrc.trans {m n : Nat} {v w : Half} {rest rest' : List HostEvent} {s : State} (h : RunsCrc m v rest s)
    (h' : ∀ t : State, t.crc = v → t.pending = rest → RunsCrc n w rest' t) : RunsCrc (m + n) w rest' s := by
  obtain ⟨answers, hlen, hrun⟩ := h
  obtain ⟨answers', hlen', hrun'⟩ := h' (afterCrc v rest answers s) rfl rfl
  refine ⟨answers ++ answers', by rw [List.length_append, hlen, hlen'], ?_⟩
  rw [run_add hrun, hrun', afterCrc_afterCrc]

/-- `CRC.UPDB` for every byte chains the byte-granular updates (R70, R74). -/
theorem runsCrc_updb_each {bytes : List Byte} {rest : List HostEvent} {s : State}
    (h : s.pending = bytes.map (fun b => HostEvent.command 0x03#8 [b]) ++ rest) :
    RunsCrc bytes.length (crcBytesFrom s.crc bytes) rest s := by
  induction bytes generalizing s with
  | nil =>
    have hrest : s.pending = rest := h
    subst hrest
    exact ⟨[], rfl, by simp [afterCrc, Host.Core.run]⟩
  | cons b bytes ih =>
    rw [List.length_cons, Nat.add_comm, crcBytesFrom_cons]
    refine (RunsCrc.of_command (i := .crcUpdb b) h rfl (exec_crcUpdb b _)).trans fun t hcrc hpending => ?_
    have ht := ih hpending
    rwa [hcrc] at ht

/-- The commands of R77 up to `CRC.READ` leave the frame checksum of R92 in `CRC`. -/
theorem runsCrc_checksumCommands {address payload : List Byte} {rest : List HostEvent} {s : State}
    (h : s.pending = checksumCommands (address ++ payload) ++ rest) :
    RunsCrc (address.length + payload.length + 2) (frameCrc address payload) (.command 0x05#8 [] :: rest) s := by
  have hlen : address.length + payload.length + 2 = 1 + ((address ++ payload).length + 1) := by rw [List.length_append]; omega
  rw [hlen]
  simp only [checksumCommands, List.cons_append, List.append_assoc, List.nil_append] at h
  refine (RunsCrc.of_command (i := .crcInit) h rfl (exec_crcInit _)).trans fun t hinit hpending => ?_
  refine (runsCrc_updb_each hpending).trans fun u hbytes hpending => ?_
  rw [frameCrc, ← hinit, ← hbytes]
  exact RunsCrc.of_command (i := .crcUpdn 0x00#8 0x01#8) hpending rfl (exec_crcUpdn _ _ _)

/-- `FRM.BUILD` puts the frame checksum in `PCRC` whenever it makes a packet (R91); otherwise `FLEN` is 0 (R81). -/
theorem build_pcrc {address payload : List Byte} {chan q n crclen : Byte} {s t : State} (hmax : address.length ≤ 5)
    (hp : payload.length ≤ 32)
    (h : build Params.esbf (chan :: BitVec.ofNat 8 address.length :: BitVec.ofNat 8 payload.length :: q :: n :: crclen ::
      (address ++ payload)) s = .ok t) (hheld : t.flen ≠ 0x0000#16) : t.pcrc = frameCrc address payload := by
  obtain ⟨_, rfl⟩ | ⟨_, alen, plen, _, _, _, _, hblob, ⟨_, rfl⟩ | ⟨_, _, rfl⟩ | ⟨_, hsup, _⟩⟩ := build_cases h
  · exact absurd (raise_flen _ _) hheld
  · exact absurd (raise_flen _ _) hheld
  · exact absurd (raise_flen _ _) hheld
  · simp only [List.cons.injEq] at hblob
    obtain ⟨_, rfl, _, _, _, rfl, _⟩ := hblob
    simp only [Bool.and_eq_true, alenSupported_iff, crclenSupported_iff, esbf_alenMin, BitVec.toNat_ofNat] at hsup
    obtain ⟨⟨⟨hmin, _⟩, _⟩, hc⟩ := hsup
    have hparts := build_parts s chan q n [] (address := address) (by omega) hmax hp hc
    rw [List.append_nil, h] at hparts
    injection hparts with ht
    rw [ht, withPacket_pcrc]

/-- Settles O48: `runsCrc_checksumCommands`, then `CRC.READ`; `FRM.BUILD`'s half is `build_pcrc`. -/
theorem hostReproducesFrameChecksum : Obligations.HostReproducesFrameChecksum := by
  unfold Obligations.HostReproducesFrameChecksum
  intro address payload rest s hpending
  obtain ⟨earlier, hlen, hrun⟩ := runsCrc_checksumCommands hpending
  refine ⟨earlier, ?run, hlen, fun chan q n crclen u v hmax hp h hheld => ?build⟩
  case run =>
    rw [run_add (n := 1) hrun, run_crcCommand (i := .crcRead) (afterCrc_pending ..) rfl (exec_crcRead _), afterCrc_crc,
      afterCrc_afterCrc, afterCrc, List.append_assoc]
  case build =>
    rw [exec_frmBuild, outcomeOf_eq_next] at h
    exact build_pcrc hmax hp h hheld

end Machine
end Sys2Proof
end

section
/-! PROOFS. The statements about `FRM.BUILD` (41_framer_build.md): invalidate (R81), the refused blobs (R82, R83), the assembled frame
(R84 to R92), `crclen` (R94). Each of the four outcomes of the command is one lemma, as an equation on `exec`. -/

namespace Sys2Proof
namespace Machine

/-! ### Invalidate comes first (R81) -/

theorem invalidate_idem (s : State) : invalidate (invalidate s) = invalidate s := rfl

theorem build_invalidate (p : Params) (blob : List Byte) (s : State) : build p blob (invalidate s) = build p blob s := by
  simp only [build, invalidate_idem]

theorem check_invalidate (p : Params) (alen crclen : Byte) (raw : List Byte) (s : State) :
    check p alen crclen raw (invalidate s) = check p alen crclen raw s := by
  simp only [check, invalidate_idem]

/-- Settles O13: the effect is that of the field lemmas of `invalidate`; both commands read the state through it alone. -/
theorem invalidateBeginsFramerCommands : Obligations.InvalidateBeginsFramerCommands := by
  unfold Obligations.InvalidateBeginsFramerCommands
  refine ⟨fun s => ?effect, fun blob s => ?build, fun alen crclen raw s => ?check⟩
  case effect =>
    exact ⟨invalidate_flen s, invalidate_alen s, invalidate_plen s, invalidate_crclen s, invalidate_chan s, invalidate_pcrc s,
      fun i _ => fbGet_nil i, invalidate_fstat s, invalidate_crc s, invalidate_pending s, invalidate_responses s⟩
  case build => rw [exec_frmBuild, exec_frmBuild, build_invalidate]
  case check => rw [exec_frmCheck, exec_frmCheck, check_invalidate]

/-! ### The four outcomes of `FRM.BUILD` (R93) -/

/-- The lengths that `FRM.BUILD` accepts with the default parameters (R83). -/
def SupportedLengths (alen plen crclen : Byte) : Prop :=
  (1 ≤ alen.toNat ∧ alen.toNat ≤ 5) ∧ plen.toNat ≤ 32 ∧ (crclen = 0x01#8 ∨ crclen = 0x02#8)

/-- The model's three checks together accept the supported lengths. -/
theorem lengthChecks_iff {alen plen crclen : Byte} :
    (alenSupported Params.esbf alen && plenSupported Params.esbf plen && crclenSupported crclen) = true ↔
      SupportedLengths alen plen crclen := by
  simp only [Bool.and_eq_true, alenSupported_iff, plenSupported_iff, crclenSupported_iff, esbf_alenMin, esbf_alenMax, esbf_plenMax,
    SupportedLengths, and_assoc]

/-- The supported values of `crclen`, in numbers. -/
theorem crclen_iff_toNat {crclen : Byte} : (crclen = 0x01#8 ∨ crclen = 0x02#8) ↔ (crclen.toNat = 1 ∨ crclen.toNat = 2) := by
  rw [← BitVec.toNat_inj, ← BitVec.toNat_inj]
  rfl

theorem exec_frmBuild_short {blob : List Byte} (s : State) (h : blob.length < 6) :
    exec (.frmBuild blob) s = .next (failedWith 0x01#8 s) :=
  congrArg outcomeOf (build_short h)

section
variable {alen plen crclen : Byte} {rest : List Byte} (chan q n : Byte) (s : State)

theorem exec_frmBuild_malformed (h : rest.length < alen.toNat + plen.toNat) :
    exec (.frmBuild (chan :: alen :: plen :: q :: n :: crclen :: rest)) s = .next (failedWith 0x01#8 s) := by
  rw [exec_frmBuild, build_fields, if_pos h, (raise_invalidate s).1, outcomeOf_ok]

theorem exec_frmBuild_unsupported (h : alen.toNat + plen.toNat ≤ rest.length) (hsup : ¬ SupportedLengths alen plen crclen) :
    exec (.frmBuild (chan :: alen :: plen :: q :: n :: crclen :: rest)) s = .next (failedWith 0x02#8 s) := by
  rw [exec_frmBuild, build_fields, if_neg (Nat.not_lt.mpr h), if_neg (mt lengthChecks_iff.mp hsup), (raise_invalidate s).2.1,
    outcomeOf_ok]

theorem exec_frmBuild_supported {address payload : List Byte} (extra : List Byte) (ha : address.length = alen.toNat)
    (hp : payload.length = plen.toNat) (hsup : SupportedLengths alen plen crclen) :
    exec (.frmBuild (chan :: alen :: plen :: q :: n :: crclen :: (address ++ (payload ++ extra)))) s =
      .next (withPacket address payload crclen chan s) := by
  obtain ⟨⟨hmin, hmax⟩, hplen, hc⟩ := hsup
  have hbuild := build_parts s chan q n extra (ha ▸ hmin) (ha ▸ hmax) (hp ▸ hplen) hc
  rw [ha, hp, BitVec.ofNat_toNat, BitVec.ofNat_toNat, BitVec.setWidth_eq, BitVec.setWidth_eq] at hbuild
  rw [exec_frmBuild, hbuild, outcomeOf_ok]

/-- A blob with all its declared bytes leaves the code of an unsupported length or the packet's, by the lengths alone. -/
theorem exec_frmBuild_fstat (h : alen.toNat + plen.toNat ≤ rest.length) :
    ∃ t, exec (.frmBuild (chan :: alen :: plen :: q :: n :: crclen :: rest)) s = .next t ∧
      (SupportedLengths alen plen crclen → t.fstat = 0x00#8) ∧ (¬ SupportedLengths alen plen crclen → t.fstat = 0x02#8) := by
  by_cases hsup : SupportedLengths alen plen crclen
  · obtain ⟨address, payload, extra, rfl, ha, hp⟩ := exists_two_parts h
    exact ⟨_, exec_frmBuild_supported chan q n s extra ha hp hsup, fun _ => withPacket_fstat .., (absurd hsup ·)⟩
  · exact ⟨_, exec_frmBuild_unsupported chan q n s h hsup, (absurd · hsup), fun _ => failedWith_fstat ..⟩

end

/-! ### The refused blobs (R82, R83) -/

/-- Settles O14: the two malformed cases, and for a blob that is long enough `exec_frmBuild_fstat`. -/
theorem buildMalformedRequest : Obligations.BuildMalformedRequest := by
  unfold Obligations.BuildMalformedRequest
  refine ⟨fun blob s h => exec_frmBuild_short s h,
    fun chan alen plen q n crclen rest s h => exec_frmBuild_malformed chan q n s h,
    fun chan alen plen q n crclen rest s h => ?longEnough⟩
  case longEnough =>
    obtain ⟨t, hexec, hok, hrefused⟩ := exec_frmBuild_fstat (crclen := crclen) chan q n s h
    refine ⟨t, hexec, ?_⟩
    by_cases hsup : SupportedLengths alen plen crclen
    · rw [hok hsup]; decide
    · rw [hrefused hsup]; decide

/-- Settles O15: the bounds of the statement are those of `SupportedLengths`. -/
theorem buildUnsupportedLength : Obligations.BuildUnsupportedLength := by
  unfold Obligations.BuildUnsupportedLength
  refine ⟨fun chan alen plen q n crclen rest s h hbad => ?refused,
    fun chan alen plen q n crclen rest s h hmin hmax hp hc => ?accepted⟩
  case refused =>
    refine exec_frmBuild_unsupported chan q n s h fun ⟨⟨hmin, hmax⟩, hp, hc⟩ => ?_
    rw [crclen_iff_toNat] at hc
    omega
  case accepted =>
    obtain ⟨t, hexec, hok, _⟩ := exec_frmBuild_fstat (crclen := crclen) chan q n s h
    exact ⟨t, hexec, hok ⟨⟨hmin, hmax⟩, hp, crclen_iff_toNat.mpr hc⟩⟩

/-! ### The assembled frame (R84 to R92) -/

/-- Settles O16: `build_parts` is the next state; the frame's length, its bytes in `FB` and its checksum are read off the terms of that
state. -/
theorem buildAssemblesFrame : Obligations.BuildAssemblesFrame := by
  unfold Obligations.BuildAssemblesFrame
  intro chan q n crclen address payload extra s hmin hmax hp hc
  have hlen := frameOf_length address payload
  refine ⟨?state, by omega, by omega, by rw [esbf_fbSize]; omega, fun i => ?bytes, ?checksum⟩
  case state => rw [exec_frmBuild, build_parts s chan q n extra hmin hmax hp hc, outcomeOf_ok]
  case bytes => rw [withPacket_fb, fbGet_memoryOf (by omega)]
  case checksum => rw [frameCrc, crcBytesFrom_eq_foldl, crcInit]

/-! ### `crclen` (R94) -/

/-- A blob that makes a packet has all its declared bytes and supported lengths: the refusals leave `FLEN` zero. -/
theorem supported_of_exec_frmBuild_held {chan alen plen q n crclen : Byte} {rest : List Byte} {s t : State}
    (h : exec (.frmBuild (chan :: alen :: plen :: q :: n :: crclen :: rest)) s = .next t) (hheld : t.flen ≠ 0x0000#16) :
    alen.toNat + plen.toNat ≤ rest.length ∧ SupportedLengths alen plen crclen := by
  have hrefused (code : Byte)
      (he : exec (.frmBuild (chan :: alen :: plen :: q :: n :: crclen :: rest)) s = .next (failedWith code s)) : False := by
    rw [he] at h
    injection h with h
    subst h
    exact hheld (failedWith_flen s code)
  have hlong : alen.toNat + plen.toNat ≤ rest.length :=
    Nat.le_of_not_lt fun hl => hrefused _ (exec_frmBuild_malformed chan q n s hl)
  exact ⟨hlong, by_contra fun hsup => hrefused _ (exec_frmBuild_unsupported chan q n s hlong hsup)⟩

/-- Settles O17: with either `crclen` the packet is `withPacket` of the same address and payload, whose frame `crclen` does not enter. -/
theorem crclenDoesNotChangeFrame : Obligations.CrclenDoesNotChangeFrame := by
  unfold Obligations.CrclenDoesNotChangeFrame
  refine fun chan alen plen q n rest s => ⟨fun t h hheld => ?packet, fun crclen h1 h2 hlong => ?refused⟩
  case packet =>
    obtain ⟨hlong, hsup⟩ := supported_of_exec_frmBuild_held h hheld
    obtain ⟨address, payload, extra, rfl, ha, hp⟩ := exists_two_parts hlong
    have hsup2 : SupportedLengths alen plen 0x02#8 := ⟨hsup.1, hsup.2.1, .inr rfl⟩
    rw [exec_frmBuild_supported chan q n s extra ha hp hsup] at h
    injection h with h
    subst h
    refine ⟨withPacket_crclen .., ?length, exec_frmBuild_supported chan q n s extra ha hp hsup2⟩
    case length =>
      obtain ⟨⟨_, hmax⟩, hpmax, _⟩ := hsup
      rw [withPacket_flen_toNat _ _ _ (by omega) (by omega), frameOf_length]
      omega
  case refused => exact exec_frmBuild_unsupported chan q n s hlong fun ⟨_, _, hc⟩ => hc.elim h1 h2

end Machine
end Sys2Proof
end

section
/-! PROOFS. The statements about `FRM.CHECK` (42_framer_check.md section 1): the refused buffers (R101, R102), the comparison (R105,
R106), the rebuilt packet (R107); and about the read-back commands (section 2): `FRM.READ` (R112) and `FRM.INFO` (R113). Each outcome
of a command is one lemma, as an equation on `exec`. -/

namespace Sys2Proof
namespace Machine

/-! ### The outcomes of `FRM.CHECK` (R108) -/

/-- The lengths that `FRM.CHECK` accepts with the default parameters (R102); the payload length is the constant 11. -/
def SupportedCheckLengths (alen crclen : Byte) : Prop :=
  (1 ≤ alen.toNat ∧ alen.toNat ≤ 5) ∧ (crclen = 0x01#8 ∨ crclen = 0x02#8)

/-- The model's two checks together accept the supported lengths. -/
theorem checkLengths_iff {alen crclen : Byte} :
    (alenSupported Params.esbf alen && crclenSupported crclen) = true ↔ SupportedCheckLengths alen crclen := by
  simp only [Bool.and_eq_true, alenSupported_iff, crclenSupported_iff, esbf_alenMin, esbf_alenMax, SupportedCheckLengths]

section
variable {alen crclen : Byte} {raw : List Byte} (s : State)

theorem exec_frmCheck_malformed (h : raw.length < alen.toNat + 14) :
    exec (.frmCheck alen crclen raw) s = .next (failedWith 0x01#8 s) := by
  rw [exec_frmCheck, check_eq, if_pos h, (raise_invalidate s).1, outcomeOf_ok]

theorem exec_frmCheck_unsupported (h : alen.toNat + 14 ≤ raw.length) (hsup : ¬ SupportedCheckLengths alen crclen) :
    exec (.frmCheck alen crclen raw) s = .next (failedWith 0x02#8 s) := by
  rw [exec_frmCheck, check_eq, if_neg (Nat.not_lt.mpr h), if_neg (mt checkLengths_iff.mp hsup), (raise_invalidate s).2.1,
    outcomeOf_ok]

/-- With supported lengths the comparison of the CRC bytes decides; neither the preamble received nor the bytes behind the CRC
enter. -/
theorem exec_frmCheck_compared {address payload : List Byte} (pre rxHi rxLo : Byte) (extra : List Byte)
    (ha : address.length = alen.toNat) (hp : payload.length = 11) (hsup : SupportedCheckLengths alen crclen) :
    exec (.frmCheck alen crclen (pre :: (address ++ (payload ++ rxHi :: rxLo :: extra)))) s =
      .next (if rxHi = hi8 (frameCrc address payload) ∧ rxLo = lo8 (frameCrc address payload)
        then withPacket address payload crclen 0x00#8 s else failedWith 0x03#8 s) := by
  have hlen : alen.toNat + 14 ≤ (pre :: (address ++ (payload ++ rxHi :: rxLo :: extra))).length := by
    simp only [List.length_cons, List.length_append]; omega
  have haccepted := checkLengths_iff.mpr hsup
  obtain ⟨⟨hmin, hmax⟩, _⟩ := hsup
  rw [exec_frmCheck, check_eq, if_neg (Nat.not_lt.mpr hlen), if_pos haccepted,
    checkFrame_parts s pre rxHi rxLo crclen extra (by omega) ha hp (by rw [esbf_fbSize]; omega), outcomeOf_ok]

/-- A buffer that is long enough leaves the code of the comparison or of an unsupported length, by the lengths alone. -/
theorem exec_frmCheck_fstat (h : alen.toNat + 14 ≤ raw.length) :
    ∃ t, exec (.frmCheck alen crclen raw) s = .next t ∧
      (SupportedCheckLengths alen crclen → t.fstat = 0x00#8 ∨ t.fstat = 0x03#8) ∧
      (¬ SupportedCheckLengths alen crclen → t.fstat = 0x02#8) := by
  by_cases hsup : SupportedCheckLengths alen crclen
  · obtain ⟨pre, address, payload, tail, rfl, ha, hp, htail⟩ := exists_raw_parts h
    obtain ⟨rxHi, rxLo, extra, rfl⟩ := exists_cons_cons htail
    refine ⟨_, exec_frmCheck_compared s pre rxHi rxLo extra ha hp hsup, fun _ => ?_, (absurd hsup ·)⟩
    split
    · exact .inl (withPacket_fstat ..)
    · exact .inr (failedWith_fstat ..)
  · exact ⟨_, exec_frmCheck_unsupported s h hsup, (absurd · hsup), fun _ => failedWith_fstat ..⟩

end

/-! ### The refused buffers (R101, R102) -/

/-- Settles O21: the malformed case, and for a buffer that is long enough `exec_frmCheck_fstat`. -/
theorem checkMalformedRequest : Obligations.CheckMalformedRequest := by
  unfold Obligations.CheckMalformedRequest
  refine ⟨fun alen crclen raw s h => exec_frmCheck_malformed s (by omega), fun alen crclen raw s h => ?longEnough⟩
  case longEnough =>
    obtain ⟨t, hexec, hcompared, hrefused⟩ := exec_frmCheck_fstat (alen := alen) (crclen := crclen) (raw := raw) s (by omega)
    refine ⟨t, hexec, ?_⟩
    by_cases hsup : SupportedCheckLengths alen crclen
    · obtain h0 | h3 := hcompared hsup
      · rw [h0]; decide
      · rw [h3]; decide
    · rw [hrefused hsup]; decide

/-- Settles O22: the bounds of the statement are those of `SupportedCheckLengths`. -/
theorem checkUnsupportedLength : Obligations.CheckUnsupportedLength := by
  unfold Obligations.CheckUnsupportedLength
  refine ⟨fun alen crclen raw s h hbad => ?refused, fun alen crclen raw s h hmin hmax hc => ?accepted⟩
  case refused =>
    refine exec_frmCheck_unsupported s (by omega) fun ⟨⟨hmin, hmax⟩, hc⟩ => ?_
    rw [crclen_iff_toNat] at hc
    omega
  case accepted =>
    obtain ⟨t, hexec, hcompared, _⟩ := exec_frmCheck_fstat (alen := alen) (crclen := crclen) (raw := raw) s (by omega)
    refine ⟨t, hexec, ?_⟩
    obtain h0 | h3 := hcompared ⟨⟨hmin, hmax⟩, crclen_iff_toNat.mpr hc⟩
    · rw [h0]; decide
    · rw [h3]; decide

/-! ### The comparison and the rebuilt packet (R105 to R107) -/

section
variable {address payload : List Byte} {crclen rxHi rxLo : Byte} (pre : Byte) (extra : List Byte) (s : State)
variable (hmin : 1 ≤ address.length) (hmax : address.length ≤ 5) (hp : payload.length = 11)
  (hc : crclen = 0x01#8 ∨ crclen = 0x02#8)
include hmin hmax hp hc

/-- The comparison for a received frame that is given by its address and its payload. -/
theorem exec_frmCheck_parts :
    exec (.frmCheck (BitVec.ofNat 8 address.length) crclen (pre :: (address ++ (payload ++ rxHi :: rxLo :: extra)))) s =
      .next (if rxHi = hi8 (frameCrc address payload) ∧ rxLo = lo8 (frameCrc address payload)
        then withPacket address payload crclen 0x00#8 s else failedWith 0x03#8 s) := by
  have ha : address.length = (BitVec.ofNat 8 address.length).toNat := by rw [BitVec.toNat_ofNat]; omega
  exact exec_frmCheck_compared s pre rxHi rxLo extra ha hp ⟨by omega, hc⟩

theorem exec_frmCheck_match (hmatch : rxHi = hi8 (frameCrc address payload) ∧ rxLo = lo8 (frameCrc address payload)) :
    exec (.frmCheck (BitVec.ofNat 8 address.length) crclen (pre :: (address ++ (payload ++ rxHi :: rxLo :: extra)))) s =
      .next (withPacket address payload crclen 0x00#8 s) := by
  rw [exec_frmCheck_parts pre extra s hmin hmax hp hc, if_pos hmatch]

theorem exec_frmCheck_mismatch (hdiff : ¬ (rxHi = hi8 (frameCrc address payload) ∧ rxLo = lo8 (frameCrc address payload))) :
    exec (.frmCheck (BitVec.ofNat 8 address.length) crclen (pre :: (address ++ (payload ++ rxHi :: rxLo :: extra)))) s =
      .next (failedWith 0x03#8 s) := by
  rw [exec_frmCheck_parts pre extra s hmin hmax hp hc, if_neg hdiff]

end

/-- A state with the frame of an address and a payload holds a packet: its `FLEN` is at least 3 (R21). -/
theorem withPacket_flen_ne_zero {address payload : List Byte} (crclen chan : Byte) (s : State) (hmax : address.length ≤ 5)
    (hp : payload.length ≤ 32) : (withPacket address payload crclen chan s).flen ≠ 0x0000#16 := by
  intro h
  have hflen := withPacket_flen_toNat crclen chan s hmax hp
  rw [h, BitVec.toNat_ofNat, frameOf_length] at hflen
  omega

/-- Behind the preamble a frame is what was received with its CRC bytes, whatever the preamble received and the bytes that
followed. -/
theorem frameOf_getD_behind_preamble {address payload : List Byte} {i : Nat} (pre : Byte) (extra : List Byte) (hi : 1 ≤ i)
    (hend : i < 3 + address.length + payload.length) :
    (frameOf address payload).getD i 0x00#8 =
      (pre :: (address ++ (payload ++ (hi8 (frameCrc address payload) :: lo8 (frameCrc address payload) :: extra)))).getD i
        0x00#8 := by
  obtain ⟨j, rfl⟩ : ∃ j, i = j + 1 := ⟨i - 1, by omega⟩
  have hbody : address ++ (payload ++ (hi8 (frameCrc address payload) :: lo8 (frameCrc address payload) :: extra)) =
      (address ++ (payload ++ [hi8 (frameCrc address payload), lo8 (frameCrc address payload)])) ++ extra := by simp
  rw [frameOf, List.getD_cons_succ, List.getD_cons_succ, hbody]
  exact (List.getD_append _ extra _ j (by simp; omega)).symm

/-- Settles O23: the two branches of the comparison. -/
theorem checkReportsCrcMismatch : Obligations.CheckReportsCrcMismatch := by
  unfold Obligations.CheckReportsCrcMismatch
  intro crclen pre rxHi rxLo address payload extra s hmin hmax hp hc
  refine ⟨exec_frmCheck_mismatch pre extra s hmin hmax hp hc, fun hhi hlo => ?held⟩
  case held =>
    exact ⟨_, exec_frmCheck_match pre extra s hmin hmax hp hc ⟨hhi, hlo⟩, withPacket_fstat ..,
      withPacket_flen_ne_zero crclen 0x00#8 s hmax (by omega)⟩

/-- Settles O24: the next state is that of the matching branch; its frame is the one received, from offset 1 on. -/
theorem checkRebuildsMatchingFrame : Obligations.CheckRebuildsMatchingFrame := by
  unfold Obligations.CheckRebuildsMatchingFrame
  intro crclen pre rxHi rxLo address payload extra s hmin hmax hp hc hhi hlo
  refine ⟨exec_frmCheck_match pre extra s hmin hmax hp hc ⟨hhi, hlo⟩, ?plen, fun i hi hend => ?bytes⟩
  case plen => rw [withPacket_plen, hp]
  case bytes =>
    rw [fbGet_withPacket crclen 0x00#8 s hmax (by omega), hhi, hlo]
    exact frameOf_getD_behind_preamble pre extra hi (by omega)

/-! ### The frame of the example R97, which the read-back examples R112 and R113 read -/

/-- The address of R97. -/
def exampleAddress : List Byte := [0xE7#8, 0xE7#8, 0xE7#8, 0xE7#8, 0xE7#8]

/-- The payload of R97. -/
def examplePayload : List Byte := [0xDE#8, 0xAD#8, 0xBE#8, 0xEF#8]

theorem frameCrc_example : frameCrc exampleAddress examplePayload = 0x165D#16 := by decide +kernel

theorem frameOf_example :
    frameOf exampleAddress examplePayload =
      [0xAA#8, 0xE7#8, 0xE7#8, 0xE7#8, 0xE7#8, 0xE7#8, 0xDE#8, 0xAD#8, 0xBE#8, 0xEF#8, 0x16#8, 0x5D#8] := by
  rw [frameOf, frameCrc_example]
  rfl

/-- The build of R97 holds that frame, with `CRCLEN = 2` and `CHAN = 2`. -/
theorem exec_frmBuild_example (s : State) :
    exec (.frmBuild [0x02#8, 0x05#8, 0x04#8, 0x00#8, 0x00#8, 0x02#8, 0xE7#8, 0xE7#8, 0xE7#8, 0xE7#8, 0xE7#8, 0xDE#8, 0xAD#8,
      0xBE#8, 0xEF#8]) s = .next (withPacket exampleAddress examplePayload 0x02#8 0x02#8 s) :=
  exec_frmBuild_supported (alen := 0x05#8) (plen := 0x04#8) (crclen := 0x02#8) (address := exampleAddress)
    (payload := examplePayload) 0x02#8 0x00#8 0x00#8 s [] rfl rfl ⟨by decide, by decide, .inr rfl⟩

/-! ### `FRM.READ` (R112) -/

/-- What `FRM.READ` answers where `FLEN` is inside the frame buffer. -/
theorem exec_frmRead_eq {s : State} (h : s.flen.toNat ≤ 40) :
    exec .frmRead s = .next (respond (0x00#8 :: fbBytes s.fb 0 s.flen.toNat) s) := by
  rw [exec_frmRead, readFrame_ok (by rw [esbf_fbSize]; exact h), outcomeOf_ok, statusOk]

/-- `FRM.READ` with no packet. -/
theorem exec_frmRead_empty {s : State} (h : s.flen = 0x0000#16) : exec .frmRead s = .next (respond [0x00#8] s) := by
  rw [exec_frmRead_eq (by rw [h]; decide), h]
  rfl

/-- `FRM.READ` of a packet returns its frame. -/
theorem exec_frmRead_withPacket {address payload : List Byte} (crclen chan : Byte) (s : State) (hmax : address.length ≤ 5)
    (hp : payload.length ≤ 32) :
    exec .frmRead (withPacket address payload crclen chan s) =
      .next (respond (0x00#8 :: frameOf address payload) (withPacket address payload crclen chan s)) := by
  have hlen : (frameOf address payload).length ≤ 40 := by rw [frameOf_length]; omega
  have hflen := withPacket_flen_toNat crclen chan s hmax hp
  rw [exec_frmRead_eq (hflen.trans_le hlen), hflen, withPacket_fb, fbBytes_memoryOf hlen]

/-- Settles O28: the three answers of `FRM.READ`, and its delivery as a command without operands. -/
theorem frmReadCommand : Obligations.FrmReadCommand := by
  unfold Obligations.FrmReadCommand
  refine ⟨fun s h => ?frame, fun s h => exec_frmRead_empty h, fun s rest hd => step_of_encode (i := .frmRead) hd rfl,
    fun operands h => answeredIllegal_c0 (op := .frmRead) (by decide) h, exec_frmRead_empty reset_flen, fun s => ?built⟩
  case frame =>
    rw [exec_frmRead_eq h, fbBytes_from_zero]
    rfl
  case built =>
    refine ⟨_, _, exec_frmBuild_example s, exec_frmRead_withPacket 0x02#8 0x02#8 s (by decide) (by decide), ?_⟩
    rw [respond_responses, frameOf_example]

/-! ### `FRM.INFO` (R113) -/

/-- The status bytes of a packet. -/
theorem infoBytes_withPacket (address payload : List Byte) (crclen chan : Byte) (s : State) :
    infoBytes (withPacket address payload crclen chan s) =
      [0x00#8, 0x00#8, BitVec.ofNat 8 address.length, BitVec.ofNat 8 payload.length, crclen, chan,
        hi8 (frameCrc address payload), lo8 (frameCrc address payload),
        hi8 (BitVec.ofNat 16 (address.length + payload.length + 3)),
        lo8 (BitVec.ofNat 16 (address.length + payload.length + 3))] := rfl

/-- The status bytes after a framer error: the code, and zeros. -/
theorem infoBytes_failedWith (code : Byte) (s : State) :
    infoBytes (failedWith code s) =
      [0x00#8, code, 0x00#8, 0x00#8, 0x00#8, 0x00#8, 0x00#8, 0x00#8, 0x00#8, 0x00#8] := by
  have hhi : hi8 0x0000#16 = 0x00#8 := by decide
  have hlo : lo8 0x0000#16 = 0x00#8 := by decide
  simp only [infoBytes, statusOk, failedWith_fstat, failedWith_alen, failedWith_plen, failedWith_crclen, failedWith_chan,
    failedWith_pcrc, failedWith_flen, hhi, hlo]

/-- Settles O30: the answer is `infoBytes`, evaluated at reset, after the build of R97 and after a `CrcMismatch`; and its delivery as
a command without operands. -/
theorem frmInfoCommand : Obligations.FrmInfoCommand := by
  unfold Obligations.FrmInfoCommand
  refine ⟨exec_frmInfo, fun s rest hd => step_of_encode (i := .frmInfo) hd rfl,
    fun operands h => answeredIllegal_c0 (op := .frmInfo) (by decide) h, ?reset, fun s => ?built, fun s t ht => ?mismatch⟩
  case reset =>
    have hbytes : infoBytes State.reset = List.replicate 10 0x00#8 := by decide
    rw [exec_frmInfo, hbytes]
    rfl
  case built =>
    refine ⟨_, _, exec_frmBuild_example s, exec_frmInfo _, ?_⟩
    rw [respond_responses, infoBytes_withPacket, frameCrc_example]
    rfl
  case mismatch =>
    rw [ht, exec_frmInfo, infoBytes_failedWith]
    rfl

end Machine
end Sys2Proof
end

section
/-! PROOFS. The statement about the framer's errors (60_exceptions.md R120). A framer command leaves a `FramerResult`, and its response
tells which: a held packet answers its whole frame, which is never one byte. -/

namespace Sys2Proof
namespace Machine

/-- The two commands that assemble or check a frame leave no packet and an error code, or a packet. -/
theorem exec_framerResult {i : Instr} {s t : State}
    (hi : (∃ blob, i = .frmBuild blob) ∨ ∃ alen crclen raw, i = .frmCheck alen crclen raw) (h : exec i s = .next t) :
    FramerResult s t := by
  obtain ⟨blob, rfl⟩ | ⟨alen, crclen, raw, rfl⟩ := hi
  · exact build_framerResult (outcomeOf_eq_next.mp h)
  · exact check_framerResult (outcomeOf_eq_next.mp h)

/-- The response of a held packet is the status byte and the frame, at least four bytes (R84, R91). -/
theorem withPacket_response_ne_singleton (address payload : List Byte) (crclen chan code : Byte) (s : State) :
    (withPacket address payload crclen chan s).responses ≠ s.responses ++ [[code]] := by
  intro h
  rw [withPacket_responses, List.append_cancel_left_eq, List.singleton_inj] at h
  have hlen := congrArg List.length h
  rw [List.length_cons, frameOf_length, List.length_singleton] at hlen
  omega

theorem FramerResult.eq_failedWith {s t : State} {code : Byte} (h : FramerResult s t)
    (hresp : t.responses = s.responses ++ [[code]]) : t = failedWith code s := by
  cases h with
  | failed raised _ =>
    rw [failedWith_responses, List.append_cancel_left_eq, List.singleton_inj, List.singleton_inj] at hresp
    rw [hresp]
  | held address payload crclen chan => exact absurd hresp (withPacket_response_ne_singleton address payload crclen chan code s)

/-- Settles O32: of the two results of a framer command, a response of one byte leaves only the failed one. -/
theorem raisedErrorDeterminesState : Obligations.RaisedErrorDeterminesState := by
  unfold Obligations.RaisedErrorDeterminesState
  intro i s t code hi h hresp
  exact (exec_framerResult hi h).eq_failedWith hresp

end Machine
end Sys2Proof
end

section
/-! PROOFS. The rest of the statements about `crc_update` and the CRC commands (40_crc.md): linearity (R71), the fixed points of a zero
byte (R65, R74), `CRC.UPDB` (R74). -/

namespace Sys2Proof
namespace Machine

/-! ### Linearity (R71) and the fixed points of a zero byte (R65) -/

theorem crcUpdate_xor (a b : Half) (d e bits : Byte) :
    crcUpdate (a ^^^ b) (d ^^^ e) bits = crcUpdate a d bits ^^^ crcUpdate b e bits := by
  have hdata : highByte (d ^^^ e) = highByte d ^^^ highByte e := highByte_xor d e
  rw [crcUpdate_eq, crcUpdate_eq, crcUpdate_eq, ← crcSteps_xor, hdata]
  ac_rfl

/-- Settles O5: the data byte enters linearly, and so does every iteration. -/
theorem crcUpdateLinear : Obligations.CrcUpdateLinear := by
  unfold Obligations.CrcUpdateLinear
  exact ⟨crcUpdate_xor, fun bits => crcSteps_zero bits.toNat⟩

theorem be16_eq_xor (hi lo : Byte) : be16 hi lo = highByte hi ^^^ lo.setWidth 16 := by
  refine BitVec.eq_of_getLsbD_eq fun i hi16 => ?_
  rw [be16, BitVec.getLsbD_append, BitVec.getLsbD_xor, getLsbD_highByte, BitVec.getLsbD_setWidth]
  by_cases h8 : i < 8
  · simp [h8, hi16, Nat.not_le.mpr h8]
  · simp [h8, hi16, Nat.not_lt.mp h8]

theorem hi8_xor (v w : Half) : hi8 (v ^^^ w) = hi8 v ^^^ hi8 w := BitVec.extractLsb'_xor

theorem lo8_xor (v w : Half) : lo8 (v ^^^ w) = lo8 v ^^^ lo8 w := BitVec.extractLsb'_xor

theorem highByte_eq_be16 (d : Byte) : highByte d = be16 d 0x00#8 := by
  rw [be16_eq_xor]
  simp

/-- Eight iterations move the low byte up and feed the high byte back into the whole register (R65). -/
theorem crcUpdate_zero_be16 (hi lo : Byte) :
    crcUpdate (be16 hi lo) 0x00#8 0x08#8 = crcUpdate 0x0000#16 hi 0x08#8 ^^^ highByte lo := by
  have hlow : crcUpdate (lo.setWidth 16) 0x00#8 0x08#8 = highByte lo := by
    have hempty (i : Nat) (hi : 16 ≤ i + 8) : (lo.setWidth 16 : Half).getLsbD i = false := by
      rw [BitVec.getLsbD_setWidth, BitVec.getLsbD_of_ge lo i (by omega), Bool.and_false]
    rw [crcUpdate_zero_ofNat (n := 8) _ (by decide), crcSteps_eq_shift hempty]
    rfl
  have hhigh : crcUpdate (highByte hi) 0x00#8 0x08#8 = crcUpdate 0x0000#16 hi 0x08#8 := by
    simp [crcUpdate_eq, highByte]
  rw [be16_eq_xor, ← hhigh, ← hlow, ← crcUpdate_xor, BitVec.xor_self]

/-- Updating a cleared register by a data byte leaves two bytes whose XOR is that data byte for two data bytes only. -/
theorem crcUpdate_zero_hi8_xor_lo8 : ∀ d : Byte,
    hi8 (crcUpdate 0x0000#16 d 0x08#8) ^^^ lo8 (crcUpdate 0x0000#16 d 0x08#8) = d → d = 0x00#8 ∨ d = 0xF0#8 := by
  decide +kernel

/-- Settles O7: at a fixed point the low byte is the low byte of what the high byte feeds back, so the high byte decides, and of its 256
values two are left. -/
theorem zeroByteUpdateFixedPoints : Obligations.ZeroByteUpdateFixedPoints := by
  unfold Obligations.ZeroByteUpdateFixedPoints
  refine fun c => ⟨fun hfix => ?only, ?both⟩
  case only =>
    obtain ⟨hi, lo, rfl⟩ : ∃ hi lo, c = be16 hi lo := ⟨hi8 c, lo8 c, (be16_hi8_lo8 c).symm⟩
    rw [crcUpdate_zero_be16, highByte_eq_be16] at hfix
    have hlo := congrArg lo8 hfix
    have hhi := congrArg hi8 hfix
    rw [lo8_xor, lo8_be16, lo8_be16, BitVec.xor_zero] at hlo
    rw [hi8_xor, hi8_be16, hi8_be16, ← hlo] at hhi
    obtain rfl | rfl := crcUpdate_zero_hi8_xor_lo8 hi hhi
    · exact .inl (by rw [← hlo]; decide)
    · exact .inr (by rw [← hlo]; decide)
  case both => rintro (rfl | rfl) <;> decide

/-! ### `CRC.UPDB` (R74) -/

/-- A command of format `C1` is illegal without exactly one operand byte (R52). -/
theorem answeredIllegal_c1 {opcode : Byte} {op : Op} {operands : List Byte} (hr : ⟨opcode, op, .c1⟩ ∈ opcodeMap)
    (h : operands.length ≠ 1) : AnsweredIllegal opcode operands :=
  answeredIllegal_of_length hr (beq_false_of_ne (by omega))

/-- Settles O10: the command is `exec_crcUpdb`, with the right side of `CRC.UPDN` of 8 bits. -/
theorem crcUpdbCommand : Obligations.CrcUpdbCommand := by
  unfold Obligations.CrcUpdbCommand
  refine ⟨fun _ _ => rfl, fun data s rest hd => step_of_encode (i := .crcUpdb data) hd rfl, fun data s => ?updn,
    fun operands h => answeredIllegal_c1 (op := .crcUpdb) (by decide) h⟩
  case updn => rw [exec_crcUpdb, exec_crcUpdn]

end Machine
end Sys2Proof
end

section
/-! PROOFS. The rest of the statements about the framer: its two large commands forget the earlier packet (R95), the round trip and the
tamper detection (R110), a 12-byte payload that passes as an 11-byte one (R109), `FRM.READ` outside the frame buffer (R8). -/

namespace Sys2Proof
namespace Machine

/-! ### The outcome is decided by the operands (R93, R95, R108) -/

/-- A framer command that does the same to every state: it fails with one code, or holds one packet. -/
inductive Uniform (command : State → Host.Outcome State Fault Refusal) : Prop where
  | failed (code : Byte) (h : ∀ s, command s = .next (failedWith code s))
  | held (address payload : List Byte) (crclen chan : Byte) (h : ∀ s, command s = .next (withPacket address payload crclen chan s))

theorem Uniform.goes_on {command : State → Host.Outcome State Fault Refusal} (h : Uniform command) (s : State) :
    ∃ t, command s = .next t := by
  cases h with
  | failed code h => exact ⟨_, h s⟩
  | held address payload crclen chan h => exact ⟨_, h s⟩

/-- Such a command reads of the state `CRC` and the port alone, which it passes on. -/
theorem Uniform.forgets {command : State → Host.Outcome State Fault Refusal} (h : Uniform command) {s s' : State}
    (hcrc : s.crc = s'.crc) (hpending : s.pending = s'.pending) (hresponses : s.responses = s'.responses) :
    command s = command s' := by
  cases h with
  | failed code h => rw [h, h, failedWith, failedWith, hcrc, hpending, hresponses]
  | held address payload crclen chan h => rw [h, h, withPacket, withPacket, hcrc, hpending, hresponses]

theorem frmBuild_uniform (blob : List Byte) : Uniform (exec (.frmBuild blob)) := by
  by_cases h6 : blob.length < 6
  · exact .failed 0x01#8 fun s => exec_frmBuild_short s h6
  obtain ⟨chan, alen, plen, q, n, crclen, rest, rfl⟩ := blob_fields (Nat.le_of_not_lt h6)
  by_cases hl : rest.length < alen.toNat + plen.toNat
  · exact .failed 0x01#8 fun s => exec_frmBuild_malformed chan q n s hl
  by_cases hsup : SupportedLengths alen plen crclen
  · obtain ⟨address, payload, extra, rfl, ha, hp⟩ := exists_two_parts (Nat.le_of_not_lt hl)
    exact .held address payload crclen chan fun s => exec_frmBuild_supported chan q n s extra ha hp hsup
  · exact .failed 0x02#8 fun s => exec_frmBuild_unsupported chan q n s (Nat.le_of_not_lt hl) hsup

theorem frmCheck_uniform (alen crclen : Byte) (raw : List Byte) : Uniform (exec (.frmCheck alen crclen raw)) := by
  by_cases hl : raw.length < alen.toNat + 14
  · exact .failed 0x01#8 fun s => exec_frmCheck_malformed s hl
  by_cases hsup : SupportedCheckLengths alen crclen
  · obtain ⟨pre, address, payload, tail, rfl, ha, hp, htail⟩ := exists_raw_parts (Nat.le_of_not_lt hl)
    obtain ⟨rxHi, rxLo, extra, rfl⟩ := exists_cons_cons htail
    have hcompared (s : State) := exec_frmCheck_compared s pre rxHi rxLo extra ha hp hsup
    by_cases hmatch : rxHi = hi8 (frameCrc address payload) ∧ rxLo = lo8 (frameCrc address payload)
    · exact .held address payload crclen 0x00#8 fun s => (hcompared s).trans (by rw [if_pos hmatch])
    · exact .failed 0x03#8 fun s => (hcompared s).trans (by rw [if_neg hmatch])
  · exact .failed 0x02#8 fun s => exec_frmCheck_unsupported s (Nat.le_of_not_lt hl) hsup

/-- Settles O19: both commands do the same to every state. -/
theorem framerCommandsForgetEarlierPacket : Obligations.FramerCommandsForgetEarlierPacket := by
  unfold Obligations.FramerCommandsForgetEarlierPacket
  intro s s' hcrc hpending hresponses
  exact ⟨fun blob => (frmBuild_uniform blob).forgets hcrc hpending hresponses,
    fun alen crclen raw => (frmCheck_uniform alen crclen raw).forgets hcrc hpending hresponses⟩

/-! ### The round trip (R110) -/

section
variable {address payload : List Byte} {crclen : Byte} (s : State)
variable (hmin : 1 ≤ address.length) (hmax : address.length ≤ 5) (hp : payload.length = 11)
  (hc : crclen = 0x01#8 ∨ crclen = 0x02#8)
include hmin hmax hp hc

/-- `FRM.CHECK` accepts a frame, whatever stands in its preamble byte. -/
theorem exec_frmCheck_frame (pre : Byte) :
    exec (.frmCheck (BitVec.ofNat 8 address.length) crclen (pre :: (frameOf address payload).tail)) s =
      .next (withPacket address payload crclen 0x00#8 s) :=
  exec_frmCheck_match pre [] s hmin hmax hp hc ⟨rfl, rfl⟩

end

/-- Settles O25: `FRM.BUILD` answers the frame, and `FRM.CHECK` of the frame holds the same packet. -/
theorem buildThenCheckRoundTrip : Obligations.BuildThenCheckRoundTrip := by
  unfold Obligations.BuildThenCheckRoundTrip
  intro chan q n crclen address payload extra f s t s' hmin hmax hp hc hbuild hresp
  have hplen : (0x0B#8 : Byte) = BitVec.ofNat 8 payload.length := by rw [hp]
  rw [hplen, exec_frmBuild, outcomeOf_eq_next, build_parts s chan q n extra hmin hmax (by omega) hc] at hbuild
  injection hbuild with hbuild
  subst hbuild
  rw [withPacket_responses, List.append_cancel_left_eq, List.singleton_inj, List.cons.injEq] at hresp
  obtain ⟨_, rfl⟩ := hresp
  exact ⟨_, exec_frmCheck_frame s' hmin hmax hp hc _, withPacket_responses .., rfl, rfl, rfl, rfl, rfl, rfl, rfl⟩

/-! ### Tamper detection (R110) -/

/-- Two address and payload strings that differ in one byte have distinct checksums. -/
theorem frameCrc_ne_of_one_byte {address payload address' payload' l r : List Byte} {d e : Byte} (hde : d ≠ e)
    (h : address ++ payload = l ++ d :: r) (h' : address' ++ payload' = l ++ e :: r) :
    frameCrc address' payload' ≠ frameCrc address payload := by
  intro heq
  rw [frameCrc, frameCrc, h, h'] at heq
  exact crcBytesFrom_ne_of_one_byte hde (crcUpdate_injective_crc heq).symm

theorem half_eq_of_bytes {v w : Half} (hhi : hi8 v = hi8 w) (hlo : lo8 v = lo8 w) : v = w := by
  rw [← be16_hi8_lo8 v, hhi, hlo, be16_hi8_lo8]

/-- A flip changes the byte it is made in. -/
theorem ne_xor_bit {bit : Nat} (hbit : bit < 8) (b : Byte) : b ≠ b ^^^ (0x01#8 <<< bit) := by
  intro h
  have hbits := congrArg (fun v : Byte => v.getLsbD bit) h
  simp [hbit] at hbits

/-- A flip inside the string changes exactly one byte. -/
theorem flipBit_eq {f : List Byte} {offset bit : Nat} (hbit : bit < 8) (h : offset < f.length) :
    ∃ l d e r, f = l ++ d :: r ∧ flipBit f offset bit = l ++ e :: r ∧ d ≠ e := by
  obtain ⟨l, d, r, hf, _, hflip⟩ := List.exists_of_modify (fun b => b ^^^ (0x01#8 <<< bit)) h
  exact ⟨l, d, _, r, hf, hflip, ne_xor_bit hbit d⟩

theorem flipBit_ne {f : List Byte} {offset bit : Nat} (hbit : bit < 8) (h : offset < f.length) : flipBit f offset bit ≠ f := by
  obtain ⟨l, d, e, r, hf, hflip, hde⟩ := flipBit_eq hbit h
  rw [hflip, hf]
  simpa using hde.symm

theorem flipBit_length (f : List Byte) (offset bit : Nat) : (flipBit f offset bit).length = f.length := List.length_modify ..

theorem flipBit_cons_succ (b : Byte) (f : List Byte) (offset bit : Nat) :
    flipBit (b :: f) (offset + 1) bit = b :: flipBit f offset bit := rfl

theorem flipBit_append_left {l : List Byte} (r : List Byte) {offset : Nat} (bit : Nat) (h : offset < l.length) :
    flipBit (l ++ r) offset bit = flipBit l offset bit ++ r := by
  induction l generalizing offset with
  | nil => cases h
  | cons b l ih =>
    cases offset with
    | zero => rfl
    | succ offset => exact congrArg (b :: ·) (ih (Nat.lt_of_succ_lt_succ h))

theorem flipBit_append_right (l r : List Byte) (offset bit : Nat) :
    flipBit (l ++ r) (l.length + offset) bit = l ++ flipBit r offset bit := by
  induction l with
  | nil => rw [List.length_nil, Nat.zero_add, List.nil_append, List.nil_append]
  | cons b l ih => rw [List.length_cons, Nat.succ_add, List.cons_append, flipBit_cons_succ, ih, List.cons_append]

section
variable {address payload : List Byte} {crclen : Byte} (s : State)
variable (hmin : 1 ≤ address.length) (hmax : address.length ≤ 5) (hp : payload.length = 11)
  (hc : crclen = 0x01#8 ∨ crclen = 0x02#8)
include hmin hmax hp hc

/-- A flip in the address or the payload changes the checksum recomputed. -/
theorem exec_frmCheck_flipped_body {offset bit : Nat} (pre : Byte) (hbit : bit < 8) (h : offset < (address ++ payload).length) :
    exec (.frmCheck (BitVec.ofNat 8 address.length) crclen (pre :: (flipBit (address ++ payload) offset bit ++
      [hi8 (frameCrc address payload), lo8 (frameCrc address payload)]))) s = .next (failedWith 0x03#8 s) := by
  obtain ⟨l, d, e, r, hbody, hflip, hde⟩ := flipBit_eq hbit h
  have hlen : (flipBit (address ++ payload) offset bit).length = address.length + 11 := by
    rw [flipBit_length, List.length_append, hp]
  obtain ⟨address', payload', hsplit, ha⟩ : ∃ address' payload',
      flipBit (address ++ payload) offset bit = address' ++ payload' ∧ address'.length = address.length :=
    ⟨_, _, (List.take_append_drop address.length _).symm, by rw [List.length_take, hlen]; omega⟩
  rw [hsplit, List.length_append] at hlen
  rw [hsplit, List.append_assoc, ← ha]
  refine exec_frmCheck_mismatch pre [] s (by omega) (by omega) (by omega) hc fun ⟨hhi, hlo⟩ => ?_
  exact frameCrc_ne_of_one_byte hde hbody (hsplit.symm.trans hflip) (half_eq_of_bytes hhi.symm hlo.symm)

/-- A flip in the CRC bytes changes the checksum received. -/
theorem exec_frmCheck_flipped_crc {offset bit : Nat} (pre : Byte) (hbit : bit < 8) (h : offset < 2) :
    exec (.frmCheck (BitVec.ofNat 8 address.length) crclen (pre :: ((address ++ payload) ++
      flipBit [hi8 (frameCrc address payload), lo8 (frameCrc address payload)] offset bit))) s = .next (failedWith 0x03#8 s) := by
  have hne := flipBit_ne (f := [hi8 (frameCrc address payload), lo8 (frameCrc address payload)]) hbit h
  obtain ⟨rxHi, rxLo, hflip⟩ := List.length_eq_two.mp (flipBit_length [hi8 (frameCrc address payload), _] offset bit)
  rw [hflip] at hne ⊢
  rw [List.append_assoc]
  refine exec_frmCheck_mismatch pre [] s hmin hmax hp hc fun ⟨hhi, hlo⟩ => hne ?_
  rw [hhi, hlo]

end

/-- Settles O26: behind the preamble a flip is made in the address and the payload, or in the CRC bytes. -/
theorem singleBitFlipDetected : Obligations.SingleBitFlipDetected := by
  unfold Obligations.SingleBitFlipDetected
  refine fun crclen address payload s bit hmin hmax hp hc hbit => ⟨fun offset h1 hend => ?detected, ?preamble⟩
  case detected =>
    obtain ⟨pre, hframe⟩ := frameOf_ends_with_crc address payload
    obtain ⟨i, rfl⟩ : ∃ i, offset = i + 1 := ⟨offset - 1, by omega⟩
    rw [hframe, List.cons_append, flipBit_cons_succ]
    by_cases hbody : i < (address ++ payload).length
    · rw [flipBit_append_left _ bit hbody]
      exact exec_frmCheck_flipped_body s hmin hmax hp hc pre hbit hbody
    · obtain ⟨j, rfl⟩ := Nat.exists_eq_add_of_le (Nat.le_of_not_lt hbody)
      rw [List.length_append] at hend
      rw [flipBit_append_right]
      exact exec_frmCheck_flipped_crc s hmin hmax hp hc pre hbit (by omega)
  case preamble => exact exec_frmCheck_frame s hmin hmax hp hc _

/-! ### A 12-byte payload (R109) -/

/-- An address with which the checksum of "HELLO WORLD" is `0x00C9`, and that of "HELLO WORLD" and a zero byte is `0xC900`. -/
def collidingAddress : List Byte := [0x12#8, 0x34#8, 0x56#8, 0x78#8, 0xA0#8]

/-- The bytes of "HELLO WORLD". -/
def collidingPayload : List Byte :=
  [0x48#8, 0x45#8, 0x4C#8, 0x4C#8, 0x4F#8, 0x20#8, 0x57#8, 0x4F#8, 0x52#8, 0x4C#8, 0x44#8]

theorem frameCrc_colliding :
    frameCrc collidingAddress collidingPayload = 0x00C9#16 ∧
    frameCrc collidingAddress (collidingPayload ++ [0x00#8]) = 0xC900#16 := by decide +kernel

/-- Settles O27: the frame of 12 payload bytes ends `00 C9 00`, whose first two bytes are the checksum of the first 11. -/
theorem checkCanAcceptTwelveBytePayload : Obligations.CheckCanAcceptTwelveBytePayload := by
  unfold Obligations.CheckCanAcceptTwelveBytePayload
  obtain ⟨hcrc11, hcrc12⟩ := frameCrc_colliding
  have hframe : frameOf collidingAddress (collidingPayload ++ [0x00#8]) =
      0x55#8 :: (collidingAddress ++ (collidingPayload ++ 0x00#8 :: 0xC9#8 :: [0x00#8])) := by
    rw [frameOf, hcrc12]
    decide
  refine ⟨collidingAddress, collidingPayload ++ [0x00#8], rfl, rfl, fun s =>
    ⟨withPacket collidingAddress collidingPayload 0x02#8 0x00#8 s, ?accepted, rfl, rfl⟩⟩
  case accepted =>
    rw [hframe]
    exact exec_frmCheck_match 0x55#8 [0x00#8] s (by decide) (by decide) rfl (.inr rfl) (by rw [hcrc11]; decide)

/-! ### `FRM.READ` outside the frame buffer (R8) -/

/-- Settles O29, by `readFrame_fault`. -/
theorem frmReadStopsOutsideFrameBuffer : Obligations.FrmReadStopsOutsideFrameBuffer := by
  unfold Obligations.FrmReadStopsOutsideFrameBuffer
  intro s h
  exact congrArg outcomeOf (readFrame_fault h)

end Machine
end Sys2Proof
end

section
/-! PROOFS. The statements about the step: what one event does (00_scope.md R3, 70_reset_and_hazards.md R135), which command writes
which register (10_state.md R12 to R20), that every command is answered (60_exceptions.md R127), and the sizes of R6 and R18. -/

namespace Sys2Proof
namespace Machine

/-! ### One event (R3, R50, R135) -/

/-- Settles O38: each word is the encoding of its command. -/
theorem sampleWordsDecode : Obligations.SampleWordsDecode := by
  unfold Obligations.SampleWordsDecode
  exact ⟨decode_eq_ok_iff.mpr rfl, decode_eq_ok_iff.mpr rfl, decode_eq_ok_iff.mpr rfl, decode_eq_ok_iff.mpr rfl,
    decode_eq_ok_iff.mpr rfl, decode_eq_ok_iff.mpr rfl, decode_eq_ok_iff.mpr rfl⟩

/-- Settles O39: the delivered string is the encoding of the command. -/
theorem stepRunsDecodedCommand : Obligations.StepRunsDecodedCommand := by
  unfold Obligations.StepRunsDecodedCommand
  intro s opcode operands rest i hd hi _
  exact step_of_encode hd (decode_eq_ok_iff.mp hi)

/-- Settles O40, by `step_idle`. -/
theorem stepWaitsWithoutEvent : Obligations.StepWaitsWithoutEvent := by
  unfold Obligations.StepWaitsWithoutEvent
  intro s h
  exact step_idle h

/-- Settles O41, by `step_reset`. -/
theorem resetEventRestoresResetState : Obligations.ResetEventRestoresResetState := by
  unfold Obligations.ResetEventRestoresResetState
  intro s rest h
  exact step_reset h

/-- Settles O44: the reset state is what a reset event leaves of it. -/
theorem resetSatisfiesInvariant : Obligations.ResetSatisfiesInvariant := by
  unfold Obligations.ResetSatisfiesInvariant
  exact blockInv_applyReset State.reset

/-! ### The sizes of a frame (R5, R6, R18) -/

/-- The constraints of R6, in numbers. -/
theorem params_wf_iff {p : Params} :
    p.wf = true ↔ 1 ≤ p.alenMin ∧ p.alenMin ≤ p.alenMax ∧ p.alenMax ≤ 255 ∧ 11 ≤ p.plenMax ∧ p.plenMax ≤ 255 := by
  simp only [Params.wf, Bool.and_eq_true, decide_eq_true_eq, and_assoc]
  exact Iff.rfl

/-- A frame with lengths inside the bounds has at least 4 bytes and at most those of the frame buffer. -/
theorem frameLength_bounds {p : Params} {alen : Byte} {plen : Nat} (hp : p.wf = true) (ha : alenSupported p alen = true)
    (hplen : plen ≤ p.plenMax) : 4 ≤ frameLength alen.toNat plen ∧ frameLength alen.toNat plen ≤ p.fbSize := by
  obtain ⟨hmin, _⟩ := params_wf_iff.mp hp
  obtain ⟨hlow, hhigh⟩ := alenSupported_iff.mp ha
  simp only [frameLength, Params.fbSize, crcBytes]
  omega

theorem fbSize_le {p : Params} (hp : p.wf = true) : p.fbSize ≤ 513 := by
  obtain ⟨_, _, halen, _, hplen⟩ := params_wf_iff.mp hp
  simp only [Params.fbSize, crcBytes]
  omega

/-- Settles O43: `frameLength_bounds` for both commands; the largest buffer has 513 bytes. -/
theorem framesFitTheBuffer : Obligations.FramesFitTheBuffer := by
  unfold Obligations.FramesFitTheBuffer
  refine ⟨rfl, esbf_fbSize, fun p alen plen hp ha hplen => ?build, fun p alen hp ha => ?check⟩
  case build =>
    obtain ⟨hlow, hhigh⟩ := frameLength_bounds hp ha (plenSupported_iff.mp hplen)
    have hmax := fbSize_le hp
    refine ⟨hlow, hhigh, by omega, ?_⟩
    rw [BitVec.toNat_ofNat]
    omega
  case check =>
    obtain ⟨_, _, _, hplen, _⟩ := params_wf_iff.mp hp
    exact frameLength_bounds hp ha hplen

/-! ### Which command writes which register (R12 to R20) -/

/-- The registers of the framer and the frame buffer are the same in both states. -/
def SameFramer (s t : State) : Prop :=
  t.alen = s.alen ∧ t.plen = s.plen ∧ t.crclen = s.crclen ∧ t.chan = s.chan ∧ t.pcrc = s.pcrc ∧ t.flen = s.flen ∧
  t.fstat = s.fstat ∧ t.fb = s.fb

theorem sameFramer_respond (r : List Byte) (s : State) : SameFramer s (respond r s) := ⟨rfl, rfl, rfl, rfl, rfl, rfl, rfl, rfl⟩

theorem sameFramer_loadCrc (v : Half) (s : State) : SameFramer s (loadCrc v s) := ⟨rfl, rfl, rfl, rfl, rfl, rfl, rfl, rfl⟩

section
variable {i : Instr} {s t : State} {opcode : Byte} {operands : List Byte}

/-- Only the first four commands of R50 write `CRC`. -/
theorem exec_keeps_crc (h : exec i s = .next t) (hi : encode i = opcode :: operands) (h1 : opcode ≠ 0x01#8)
    (h2 : opcode ≠ 0x02#8) (h3 : opcode ≠ 0x03#8) (h4 : opcode ≠ 0x04#8) : t.crc = s.crc := by
  cases i with
  | crcInit => exact absurd (List.cons.inj hi).1.symm h1
  | crcLoad => exact absurd (List.cons.inj hi).1.symm h2
  | crcUpdb => exact absurd (List.cons.inj hi).1.symm h3
  | crcUpdn => exact absurd (List.cons.inj hi).1.symm h4
  | crcRead => cases h; exact respondCrc_crc s
  | frmBuild blob => exact (leavesCrc_frmBuild blob s s.crc).2 t h
  | frmCheck alen crclen raw => exact (leavesCrc_frmCheck alen crclen raw s s.crc).2 t h
  | frmRead => exact (leavesCrc_frmRead s s.crc).2 t h
  | frmInfo => exact (leavesCrc_frmInfo s s.crc).2 t h

/-- Only `FRM.BUILD` and `FRM.CHECK` write the framer's registers and the frame buffer. -/
theorem exec_keeps_framer (h : exec i s = .next t) (hi : encode i = opcode :: operands) (h10 : opcode ≠ 0x10#8)
    (h11 : opcode ≠ 0x11#8) : SameFramer s t := by
  cases i with
  | crcInit => cases h; exact sameFramer_loadCrc _ s
  | crcLoad => cases h; exact sameFramer_loadCrc _ s
  | crcUpdb => cases h; exact sameFramer_loadCrc _ s
  | crcUpdn => cases h; exact sameFramer_loadCrc _ s
  | crcRead => cases h; exact sameFramer_respond _ s
  | frmBuild => exact absurd (List.cons.inj hi).1.symm h10
  | frmCheck => exact absurd (List.cons.inj hi).1.symm h11
  | frmRead =>
    obtain ⟨_, rfl⟩ := readFrame_eq_ok (outcomeOf_eq_next.mp h)
    exact sameFramer_respond _ s
  | frmInfo => cases h; exact sameFramer_respond _ s

end

/-- Settles O34: a legal string is `exec` of its command; an illegal one adds its response to the state with the event taken. -/
theorem registersHaveTheirWriters : Obligations.RegistersHaveTheirWriters := by
  unfold Obligations.RegistersHaveTheirWriters
  intro s t opcode operands rest hd hstep
  rw [step_command hd] at hstep
  obtain ⟨i, hi, hrun⟩ | ⟨e, he, hrun⟩ := runCommand_cases (opcode :: operands) (takeEvent rest s)
  · rw [hrun] at hstep
    have henc := decode_eq_ok_iff.mp hi
    refine ⟨exec_keeps_crc (s := takeEvent rest s) hstep henc, exec_keeps_framer (s := takeEvent rest s) hstep henc,
      fun reason he => ?_⟩
    rw [hi] at he
    cases he
  · rw [hrun] at hstep
    cases hstep
    exact ⟨fun _ _ _ _ => raise_crc _ _, fun _ _ => sameFramer_respond _ _, fun _ _ => rfl⟩

/-! ### Every command is answered (R127) -/

/-- What a delivered command does to the port: no other event is taken, and one response is given, a status code of R116 first and an
error's code alone. -/
def AnswersWithCode (s t : State) : Prop :=
  t.pending = s.pending ∧
  ∃ (code : Byte) (tail : List Byte), t.responses = s.responses ++ [code :: tail] ∧ code.toNat ≤ 4 ∧ (code ≠ 0x00#8 → tail = [])

theorem errorCodesOf_le (i : Instr) : ∀ code ∈ errorCodesOf i, code.toNat ≤ 4 := by
  cases i <;> simp [errorCodesOf]

theorem successResponse_eq_cons (i : Instr) (t : State) : ∃ tail, successResponse i t = 0x00#8 :: tail := by
  cases i <;> exact ⟨_, rfl⟩

theorem FramerResult.pending {s t : State} (h : FramerResult s t) : t.pending = s.pending := by
  cases h with
  | failed code _ => exact failedWith_pending s code
  | held address payload crclen chan => exact withPacket_pending address payload crclen chan s

theorem exec_keeps_pending {i : Instr} {s t : State} (h : exec i s = .next t) : t.pending = s.pending := by
  cases i with
  | crcInit => cases h; exact loadCrc_pending s _
  | crcLoad => cases h; exact loadCrc_pending s _
  | crcUpdb => cases h; exact loadCrc_pending s _
  | crcUpdn => cases h; exact loadCrc_pending s _
  | crcRead => cases h; exact respondCrc_pending s
  | frmBuild blob => exact (build_framerResult (outcomeOf_eq_next.mp h)).pending
  | frmCheck alen crclen raw => exact (check_framerResult (outcomeOf_eq_next.mp h)).pending
  | frmRead =>
    obtain ⟨_, rfl⟩ := readFrame_eq_ok (outcomeOf_eq_next.mp h)
    exact respond_pending s _
  | frmInfo => cases h; exact respond_pending s _

theorem exec_answersWithCode {i : Instr} {s t : State} (h : exec i s = .next t) : AnswersWithCode s t := by
  refine ⟨exec_keeps_pending h, ?_⟩
  obtain ⟨r, hresp, _, ⟨code, hcode, rfl⟩ | rfl⟩ := exec_answers h
  · exact ⟨code, [], hresp, errorCodesOf_le i code hcode, fun _ => rfl⟩
  · obtain ⟨tail, htail⟩ := successResponse_eq_cons i t
    exact ⟨0x00#8, tail, htail ▸ hresp, by decide, fun h0 => absurd rfl h0⟩

/-- Under the invariant no command stops: the two large commands decide by their operands, and `FRM.READ` stays inside the frame
buffer. -/
theorem exec_goes_on {s : State} (hinv : BlockInv Params.esbf s) (i : Instr) : ∃ t, exec i s = .next t := by
  cases i with
  | crcInit => exact ⟨_, exec_crcInit s⟩
  | crcLoad hi lo => exact ⟨_, exec_crcLoad hi lo s⟩
  | crcUpdb data => exact ⟨_, exec_crcUpdb data s⟩
  | crcUpdn data bits => exact ⟨_, exec_crcUpdn data bits s⟩
  | crcRead => exact ⟨_, exec_crcRead s⟩
  | frmBuild blob => exact (frmBuild_uniform blob).goes_on s
  | frmCheck alen crclen raw => exact (frmCheck_uniform alen crclen raw).goes_on s
  | frmRead => exact ⟨_, exec_frmRead_eq (blockInv_flen_le hinv)⟩
  | frmInfo => exact ⟨_, exec_frmInfo s⟩

theorem runCommand_answersWithCode {s : State} (hinv : BlockInv Params.esbf s) (cmd : List Byte) :
    ∃ t, runCommand cmd s = .next t ∧ AnswersWithCode s t := by
  obtain ⟨i, _, hrun⟩ | ⟨e, _, hrun⟩ := runCommand_cases cmd s
  · obtain ⟨t, ht⟩ := exec_goes_on hinv i
    exact ⟨t, hrun.trans ht, exec_answersWithCode ht⟩
  · exact ⟨_, hrun, raise_pending s _, 0x04#8, [], raise_responses s _, by decide, fun _ => rfl⟩

theorem step_answersWithCode {s : State} {opcode : Byte} {operands : List Byte} {rest : List HostEvent}
    (hinv : BlockInv Params.esbf s) (hd : Delivers s opcode operands rest) :
    ∃ t, step s = .next t ∧ AnswersWithCode (takeEvent rest s) t := by
  rw [step_command hd]
  exact runCommand_answersWithCode (blockInv_takeEvent rest hinv) _

/-- Settles O46: the three kinds of step; a command is `step_answersWithCode`. -/
theorem everyCommandResponds : Obligations.EveryCommandResponds := by
  unfold Obligations.EveryCommandResponds
  refine fun s hinv => ⟨?safe, fun opcode operands rest hd => ?answered⟩
  case safe =>
    obtain ⟨_, hstep⟩ | ⟨_, _, hstep⟩ | ⟨opcode, operands, rest, hd, _⟩ := step_cases s
    · exact ⟨_, hstep⟩
    · exact ⟨_, hstep⟩
    · obtain ⟨t, hstep, _⟩ := step_answersWithCode hinv hd
      exact ⟨t, hstep⟩
  case answered =>
    obtain ⟨t, hstep, hpending, code, tail, hanswer⟩ := step_answersWithCode hinv hd
    exact ⟨t, code, tail, hstep, hpending, hanswer⟩

/-- One event under the invariant: it is taken, and a command gets one response more (R127, R135). -/
theorem step_event {s : State} {e : HostEvent} {rest : List HostEvent} (hinv : BlockInv Params.esbf s)
    (hpending : s.pending = e :: rest) :
    ∃ t, step s = .next t ∧ t.pending = rest ∧ t.responses.length = s.responses.length + ([e].filter isCommand).length := by
  cases e with
  | reset => exact ⟨_, step_reset hpending, applyReset_pending _, congrArg List.length (applyReset_responses _)⟩
  | command opcode operands =>
    obtain ⟨t, hstep, hrest, code, tail, hresp, _⟩ := step_answersWithCode hinv hpending
    exact ⟨t, hstep, hrest, by rw [hresp, List.length_append]; rfl⟩

/-- Settles O47, by induction on the pending events: each step takes one and keeps the invariant. -/
theorem runsAnswerEveryCommand : Obligations.RunsAnswerEveryCommand := by
  unfold Obligations.RunsAnswerEveryCommand
  intro s hinv
  generalize hevents : s.pending = events
  induction events generalizing s with
  | nil => exact ⟨s, rfl, hinv, hevents, rfl⟩
  | cons e rest ih =>
    obtain ⟨t, hstep, hrest, hcount⟩ := step_event hinv hevents
    obtain ⟨u, hrun, hinv', hdone, hcount'⟩ := ih t (stepKeepsInvariant s t hinv hstep) hrest
    refine ⟨u, (run_succ hstep).trans hrun, hinv', hdone, ?_⟩
    rw [hcount', hcount, ← List.singleton_append (l := rest), List.filter_append, List.length_append, Nat.add_assoc]

end Machine
end Sys2Proof
end

section
/-! PROOFS. The statements about written commands (30_encoding.md R57, R58). A command is written as its name and then its operands, each
behind one space and with a comma between two of them (`joinOperands`). What the reader does to such a line is said once, for every
name and every list of operands that read back (`assembleLine_written`); a command's line is then read operand by operand. -/

namespace Sys2Proof
namespace Machine

/-! ### Digits and bytes -/

/-- The characters that end a byte, an operand or a line, or bracket a byte string. -/
def separators : List Char := [' ', ',', ';', openBrace, closeBrace]

theorem hexDigit_hexChar : ∀ n < 16, hexDigit (hexChar n) = some n := by decide +kernel

theorem hexChar_notMem_separators : ∀ n < 16, hexChar n ∉ separators := by decide +kernel

/-- The two digits of a byte are read back as the byte. -/
theorem showByte_eq (b : Byte) : ∃ h l : Char, showByte b = [h, l] ∧ hexByte h l = some b := by
  have hhigh : b.toNat / 16 < 16 := by omega
  have hlow : b.toNat % 16 < 16 := by omega
  have hvalue : 16 * (b.toNat / 16) + b.toNat % 16 = b.toNat := by omega
  exact ⟨_, _, rfl, by simp [hexByte, hexDigit_hexChar _ hhigh, hexDigit_hexChar _ hlow, hvalue]⟩

theorem notMem_showByte {c : Char} (hc : c ∈ separators) (b : Byte) : c ∉ showByte b := by
  have hhigh := hexChar_notMem_separators (b.toNat / 16) (by omega)
  have hlow := hexChar_notMem_separators (b.toNat % 16) (by omega)
  rw [showByte, List.mem_pair]
  rintro (rfl | rfl)
  · exact hhigh hc
  · exact hlow hc

theorem getLast?_append_showByte (cs : List Char) (b : Byte) : (cs ++ showByte b).getLast? ≠ some ' ' := by
  intro hlast
  have hne : showByte b ≠ [] := List.cons_ne_nil _ _
  refine notMem_showByte (c := ' ') (by decide) b (List.mem_of_getLast? ?_)
  rwa [List.getLast?_append_of_ne_nil _ hne] at hlast

/-! ### Byte strings -/

theorem stringBytes_close : stringBytes [closeBrace] = some [] := by decide

theorem stringBytes_space (cs : List Char) : stringBytes (' ' :: cs) = stringBytes cs := by
  conv_lhs => unfold stringBytes
  rw [if_neg (by decide), if_pos rfl]

/-- A written byte in front of a space or of the closing brace is read as that byte. -/
theorem stringBytes_showByte (b : Byte) {e : Char} (cs : List Char) (he : endsByte e = true) :
    stringBytes (showByte b ++ e :: cs) = (stringBytes (e :: cs)).map (b :: ·) := by
  obtain ⟨h, l, hshow, hbyte⟩ := showByte_eq b
  have hclose : closeBrace ∉ [h, l] := hshow ▸ notMem_showByte (by decide) b
  have hspace : ' ' ∉ [h, l] := hshow ▸ notMem_showByte (by decide) b
  rw [hshow, List.cons_append, List.cons_append, List.nil_append, stringBytes,
    if_neg (Ne.symm (List.ne_of_not_mem_cons hclose)), if_neg (Ne.symm (List.ne_of_not_mem_cons hspace))]
  simp only [he, if_true, hbyte]
  cases stringBytes (e :: cs) <;> rfl

theorem stringBytes_showBytesInside (s : List Byte) : stringBytes (showBytesInside s ++ [closeBrace]) = some s := by
  induction s with
  | nil => exact stringBytes_close
  | cons b rest ih =>
    cases rest with
    | nil => rw [showBytesInside, stringBytes_showByte b [] (by decide), stringBytes_close]; rfl
    | cons b' rest =>
      rw [showBytesInside, List.append_assoc, List.cons_append, stringBytes_showByte b _ (by decide), stringBytes_space, ih]
      · rfl
      · exact List.cons_ne_nil _ _

/-! ### Cutting and trimming text -/

/-- No space at either end. -/
def Trimmed (cs : List Char) : Prop := cs.head? ≠ some ' ' ∧ cs.getLast? ≠ some ' '

theorem dropSpaces_eq_self {cs : List Char} (h : cs.head? ≠ some ' ') : cs.dropWhile (fun c => c == ' ') = cs := by
  cases cs with
  | nil => rfl
  | cons c rest => exact List.dropWhile_cons_of_neg (by simpa using h)

theorem trim_of_trimmed {cs : List Char} (h : Trimmed cs) : trim cs = cs := by
  rw [trim, dropSpaces_eq_self h.1, dropSpaces_eq_self (by rw [List.head?_reverse]; exact h.2), List.reverse_reverse]

theorem trim_space_cons (cs : List Char) : trim (' ' :: cs) = trim cs := by
  rw [trim, List.dropWhile_cons_of_pos (by decide), trim]

theorem splitAt_of_notMem {sep : Char} {cs : List Char} (h : sep ∉ cs) : splitAt sep cs = [cs] := by
  induction cs with
  | nil => rfl
  | cons c rest ih =>
    rw [splitAt, if_neg (List.ne_of_not_mem_cons h).symm, ih (List.not_mem_of_not_mem_cons h)]

theorem splitAt_append_cons {sep : Char} {cs : List Char} (rest : List Char) (h : sep ∉ cs) :
    splitAt sep (cs ++ sep :: rest) = cs :: splitAt sep rest := by
  induction cs with
  | nil => rw [List.nil_append, splitAt, if_pos rfl]
  | cons c cs ih =>
    rw [List.cons_append, splitAt, if_neg (List.ne_of_not_mem_cons h).symm, ih (List.not_mem_of_not_mem_cons h)]

/-! ### Operands -/

/-- A text that reads back as an operand, and that no comma cut, comment or trimming touches. -/
structure Writes (text : List Char) (o : AsmOperand) : Prop where
  parses : parseOperand text = some o
  noComma : ',' ∉ text
  noSemicolon : ';' ∉ text
  trimmed : Trimmed text

theorem Writes.ne_nil {text : List Char} {o : AsmOperand} (h : Writes text o) : text ≠ [] := by
  rintro rfl
  cases h.parses

theorem writes_showOperand (b : Byte) : Writes (showOperand b) (.byte b) := by
  obtain ⟨h, l, hshow, hbyte⟩ := showByte_eq b
  have hnotMem {c : Char} (hc : c ∈ separators) (h0 : c ≠ '0') (hx : c ≠ 'x') : c ∉ showOperand b := by
    simp [showOperand, h0, hx, notMem_showByte hc b]
  refine ⟨?parses, hnotMem (by decide) (by decide) (by decide), hnotMem (by decide) (by decide) (by decide), ?first,
    getLast?_append_showByte ['0', 'x'] b⟩
  case parses => simp [showOperand, hshow, parseOperand, hbyte]
  case first => simp [showOperand]

/-- The 16-bit operand of `CRC.LOAD` is written as its two bytes. -/
theorem writes_half (hi lo : Byte) : Writes ('0' :: 'x' :: (showByte hi ++ showByte lo)) (.half (be16 hi lo)) := by
  obtain ⟨a, b, hshowHi, hbyteHi⟩ := showByte_eq hi
  obtain ⟨c, d, hshowLo, hbyteLo⟩ := showByte_eq lo
  have hnotMem {e : Char} (he : e ∈ separators) (h0 : e ≠ '0') (hx : e ≠ 'x') :
      e ∉ '0' :: 'x' :: (showByte hi ++ showByte lo) := by
    simp [h0, hx, notMem_showByte he hi, notMem_showByte he lo]
  refine ⟨?parses, hnotMem (by decide) (by decide) (by decide), hnotMem (by decide) (by decide) (by decide), ?first,
    getLast?_append_showByte ('0' :: 'x' :: showByte hi) lo⟩
  case parses => simp [hshowHi, hshowLo, parseOperand, hbyteHi, hbyteLo]
  case first => simp

/-- Inside a byte string there are digits and spaces. -/
theorem notMem_showBytesInside {c : Char} (hc : c ∈ separators) (hspace : c ≠ ' ') (s : List Byte) : c ∉ showBytesInside s := by
  induction s with
  | nil => exact List.not_mem_nil
  | cons b rest ih =>
    cases rest with
    | nil => exact notMem_showByte hc b
    | cons b' rest => simp [showBytesInside, notMem_showByte hc b, hspace, ih]

theorem parseOperand_openBrace (cs : List Char) : parseOperand (openBrace :: cs) = (stringBytes cs).map .bytes := by
  have h0 : openBrace ≠ '0' := by decide
  have h1 : openBrace ≠ '1' := by decide
  simp [parseOperand, h0, h1]

theorem writes_showBytes (s : List Byte) : Writes (showBytes s) (.bytes s) := by
  have hnotMem {c : Char} (hc : c ∈ separators) (hspace : c ≠ ' ') (hopen : c ≠ openBrace) (hclose : c ≠ closeBrace) :
      c ∉ showBytes s := by
    simp [showBytes, hopen, hclose, notMem_showBytesInside hc hspace s]
  refine ⟨?parses, hnotMem (by decide) (by decide) (by decide) (by decide),
    hnotMem (by decide) (by decide) (by decide) (by decide), ?first, ?last⟩
  case parses => rw [showBytes, parseOperand_openBrace, stringBytes_showBytesInside]; rfl
  case first =>
    rw [showBytes, List.head?_cons]
    decide
  case last =>
    rw [showBytes, ← List.cons_append, List.getLast?_concat]
    decide

/-! ### A written line -/

/-- The operands of a line as R57 writes them behind the name. -/
def joinOperands (texts : List (List Char)) : List Char :=
  match texts with
  | [] => []
  | [t] => ' ' :: t
  | t :: t' :: ts => ' ' :: (t ++ ',' :: joinOperands (t' :: ts))

theorem joinOperands_cons (t : List Char) (ts : List (List Char)) :
    ∃ more, joinOperands (t :: ts) = ' ' :: (t ++ more) := by
  cases ts with
  | nil => exact ⟨[], by simp [joinOperands]⟩
  | cons t' ts => exact ⟨_, rfl⟩

theorem joinOperands_starts (texts : List (List Char)) :
    joinOperands texts = [] ∨ ∃ more, joinOperands texts = ' ' :: more := by
  cases texts with
  | nil => exact .inl rfl
  | cons t ts =>
    obtain ⟨more, hmore⟩ := joinOperands_cons t ts
    exact .inr ⟨_, hmore⟩

section
variable {texts : List (List Char)} {operands : List AsmOperand}

theorem joinOperands_noSemicolon (h : List.Forall₂ Writes texts operands) : ';' ∉ joinOperands texts := by
  induction h with
  | nil => exact List.not_mem_nil
  | @cons t o ts os ht hts ih =>
    cases ts with
    | nil => simp [joinOperands, ht.noSemicolon]
    | cons t' ts => simp [joinOperands, ht.noSemicolon, ih]

/-- Written operands end as the last of them does. -/
theorem joinOperands_getLast? (h : List.Forall₂ Writes texts operands) : (joinOperands texts).getLast? ≠ some ' ' := by
  induction h with
  | nil => simp [joinOperands]
  | @cons t o ts os ht hts ih =>
    cases ts with
    | nil =>
      rw [joinOperands, ← List.singleton_append, List.getLast?_append_of_ne_nil _ ht.ne_nil]
      exact ht.trimmed.2
    | cons t' ts =>
      have hne : joinOperands (t' :: ts) ≠ [] := by
        obtain ⟨more, hmore⟩ := joinOperands_cons t' ts
        rw [hmore]
        exact List.cons_ne_nil _ _
      have hsplit : joinOperands (t :: t' :: ts) = (' ' :: (t ++ [','])) ++ joinOperands (t' :: ts) := by simp [joinOperands]
      rw [hsplit, List.getLast?_append_of_ne_nil _ hne]
      exact ih

/-- Cut at the commas, written operands are the operand texts, each behind one space. -/
theorem splitAt_joinOperands (h : List.Forall₂ Writes texts operands) (hne : texts ≠ []) :
    splitAt ',' (joinOperands texts) = texts.map (' ' :: ·) := by
  induction h with
  | nil => exact absurd rfl hne
  | @cons t o ts os ht hts ih =>
    have hcomma : ',' ∉ ' ' :: t := by simp [ht.noComma]
    cases ts with
    | nil => exact splitAt_of_notMem hcomma
    | cons t' ts =>
      rw [joinOperands, ← List.cons_append, splitAt_append_cons _ hcomma, ih (List.cons_ne_nil _ _)]
      rfl

theorem mapM_parseOperand (h : List.Forall₂ Writes texts operands) :
    (texts.map (' ' :: ·)).mapM (fun o => parseOperand (trim o)) = some operands := by
  induction h with
  | nil => rfl
  | cons ht _ ih => simp [trim_space_cons, trim_of_trimmed ht.trimmed, ht.parses, ih]

theorem parseOperands_joinOperands (h : List.Forall₂ Writes texts operands) : parseOperands (joinOperands texts) = some operands := by
  have hparts := mapM_parseOperand h
  have hlast := joinOperands_getLast? h
  cases h with
  | nil => rfl
  | @cons t o ts os ht hts =>
    obtain ⟨c, rest, rfl⟩ := List.exists_cons_of_ne_nil ht.ne_nil
    have hnonempty : trim (joinOperands ((c :: rest) :: ts)) ≠ [] := by
      obtain ⟨more, hmore⟩ := joinOperands_cons (c :: rest) ts
      have htrim : Trimmed (c :: (rest ++ more)) := ⟨ht.trimmed.1, by simpa [hmore] using hlast⟩
      rw [hmore, trim_space_cons, List.cons_append, trim_of_trimmed htrim]
      exact List.cons_ne_nil _ _
    rw [parseOperands, if_neg (by simpa using hnonempty), splitAt_joinOperands (.cons ht hts) (List.cons_ne_nil _ _), hparts]

end

/-- The spellings of R50 and R58 are found again, and are words of a line. -/
theorem asmNames_words :
    ∀ r ∈ asmNames, parseName r.1 = some r.2 ∧ r.1 ≠ [] ∧ r.1.head? ≠ some ' ' ∧ r.1.getLast? ≠ some ' ' ∧
      ' ' ∉ r.1 ∧ ';' ∉ r.1 := by
  decide +kernel

section
variable {word rest : List Char} (hword : ' ' ∉ word) (hrest : rest = [] ∨ ∃ more, rest = ' ' :: more)
include hword hrest

/-- The name of a line ends at the first space. -/
theorem takeWhile_word : (word ++ rest).takeWhile (fun c => c != ' ') = word := by
  rw [List.takeWhile_append_of_pos fun c hc => bne_iff_ne.mpr (ne_of_mem_of_not_mem hc hword)]
  obtain rfl | ⟨more, rfl⟩ := hrest <;> simp

theorem dropWhile_word : (word ++ rest).dropWhile (fun c => c != ' ') = rest := by
  rw [List.dropWhile_append_of_pos fun c hc => bne_iff_ne.mpr (ne_of_mem_of_not_mem hc hword)]
  obtain rfl | ⟨more, rfl⟩ := hrest <;> simp

end

/-- Two texts, of which the first begins and both end without a space. -/
theorem trimmed_append {word rest : List Char} (hne : word ≠ []) (hword : Trimmed word) (hrest : rest.getLast? ≠ some ' ') :
    Trimmed (word ++ rest) := by
  refine ⟨?first, ?last⟩
  case first =>
    rw [List.head?_append_of_ne_nil _ hne]
    exact hword.1
  case last =>
    by_cases hnil : rest = []
    · rw [hnil, List.append_nil]
      exact hword.2
    · rw [List.getLast?_append_of_ne_nil _ hnil]
      exact hrest

/-- A name and operands that read back, written as a line, are read as that name with those operands. -/
theorem assembleLine_written {word : List Char} {name : AsmName} {texts : List (List Char)} {operands : List AsmOperand}
    (hname : (word, name) ∈ asmNames) (h : List.Forall₂ Writes texts operands) :
    assembleLine (word ++ joinOperands texts) = assembleTokens name operands := by
  obtain ⟨hparse, hne, hfirst, hlast, hspace, hsemicolon⟩ := asmNames_words _ hname
  have hcode : (word ++ joinOperands texts).takeWhile (fun c => c != ';') = word ++ joinOperands texts := by
    rw [List.takeWhile_eq_self_iff]
    intro c hc
    rw [bne_iff_ne]
    rintro rfl
    exact (List.mem_append.mp hc).elim hsemicolon (joinOperands_noSemicolon h)
  have htrim : trim (word ++ joinOperands texts) = word ++ joinOperands texts :=
    trim_of_trimmed (trimmed_append hne ⟨hfirst, hlast⟩ (joinOperands_getLast? h))
  have hjoin := joinOperands_starts texts
  have hempty : ¬ (word ++ joinOperands texts).isEmpty = true := by simp [hne]
  unfold assembleLine
  simp only [hcode, htrim, if_neg hempty, takeWhile_word hspace hjoin, dropWhile_word hspace hjoin, hparse,
    parseOperands_joinOperands h, Option.bind_eq_bind, Option.bind_some]

/-! ### The line of a command -/

/-- The spelling of an operation (R50). -/
def opText (o : Op) : List Char :=
  match o with
  | .crcInit => "CRC.INIT".toList
  | .crcLoad => "CRC.LOAD".toList
  | .crcUpdb => "CRC.UPDB".toList
  | .crcUpdn => "CRC.UPDN".toList
  | .crcRead => "CRC.READ".toList
  | .frmBuild => "FRM.BUILD".toList
  | .frmCheck => "FRM.CHECK".toList
  | .frmRead => "FRM.READ".toList
  | .frmInfo => "FRM.INFO".toList

/-- The operands of a command as R57 has them. -/
def asmOperands (i : Instr) : List AsmOperand :=
  match i with
  | .crcInit | .crcRead | .frmRead | .frmInfo => []
  | .crcLoad hi lo => [.half (be16 hi lo)]
  | .crcUpdb data => [.byte data]
  | .crcUpdn data bits => [.byte data, .byte bits]
  | .frmBuild blob => [.bytes blob]
  | .frmCheck alen crclen raw => [.byte alen, .byte crclen, .bytes raw]

/-- The operands of a command as `showInstr` writes them. -/
def operandTexts (i : Instr) : List (List Char) :=
  match i with
  | .crcInit | .crcRead | .frmRead | .frmInfo => []
  | .crcLoad hi lo => ['0' :: 'x' :: (showByte hi ++ showByte lo)]
  | .crcUpdb data => [showOperand data]
  | .crcUpdn data bits => [showOperand data, showOperand bits]
  | .frmBuild blob => [showBytes blob]
  | .frmCheck alen crclen raw => [showOperand alen, showOperand crclen, showBytes raw]

theorem opText_mem (o : Op) : (opText o, .op o) ∈ asmNames := by
  cases o <;> decide +kernel

/-- The fixed parts of a written line, cut where a name or an operand ends. -/
theorem showInstr_literals :
    "CRC.LOAD 0x".toList = opText .crcLoad ++ [' ', '0', 'x'] ∧ "CRC.UPDB ".toList = opText .crcUpdb ++ [' '] ∧
    "CRC.UPDN ".toList = opText .crcUpdn ++ [' '] ∧ "FRM.BUILD ".toList = opText .frmBuild ++ [' '] ∧
    "FRM.CHECK ".toList = opText .frmCheck ++ [' '] ∧ ", ".toList = [',', ' '] := by decide +kernel

theorem showInstr_eq (i : Instr) : showInstr i = opText (opOf i) ++ joinOperands (operandTexts i) := by
  obtain ⟨hload, hupdb, hupdn, hbuild, hcheck, hcomma⟩ := showInstr_literals
  cases i with
  | crcInit | crcRead | frmRead | frmInfo => exact (List.append_nil _).symm
  | crcLoad hi lo =>
    change "CRC.LOAD 0x".toList ++ showByte hi ++ showByte lo = _
    simp only [hload, List.append_assoc]
    rfl
  | crcUpdb data =>
    change "CRC.UPDB ".toList ++ showOperand data = _
    simp only [hupdb, List.append_assoc]
    rfl
  | crcUpdn data bits =>
    change "CRC.UPDN ".toList ++ showOperand data ++ ", ".toList ++ showOperand bits = _
    simp only [hupdn, hcomma, List.append_assoc]
    rfl
  | frmBuild blob =>
    change "FRM.BUILD ".toList ++ showBytes blob = _
    simp only [hbuild, List.append_assoc]
    rfl
  | frmCheck alen crclen raw =>
    change "FRM.CHECK ".toList ++ showOperand alen ++ ", ".toList ++ showOperand crclen ++ ", ".toList ++ showBytes raw = _
    simp only [hcheck, hcomma, List.append_assoc]
    rfl

theorem writes_operandTexts (i : Instr) : List.Forall₂ Writes (operandTexts i) (asmOperands i) := by
  cases i with
  | crcInit | crcRead | frmRead | frmInfo => exact .nil
  | crcLoad hi lo => exact .cons (writes_half hi lo) .nil
  | crcUpdb data => exact .cons (writes_showOperand data) .nil
  | crcUpdn data bits => exact .cons (writes_showOperand data) (.cons (writes_showOperand bits) .nil)
  | frmBuild blob => exact .cons (writes_showBytes blob) .nil
  | frmCheck alen crclen raw =>
    exact .cons (writes_showOperand alen) (.cons (writes_showOperand crclen) (.cons (writes_showBytes raw) .nil))

theorem assembleTokens_asmOperands (i : Instr) : assembleTokens (.op (opOf i)) (asmOperands i) = some [i] := by
  cases i <;> simp [assembleTokens, opOf, asmOperands, tokens0, tokensHalf, tokensByte, tokensByteByte, tokensBuild, tokensCheck]

/-- Settles O50: a command's line is its name and its operands, which read back one by one. -/
theorem assemblerReadsWrittenCommand : Obligations.AssemblerReadsWrittenCommand := by
  unfold Obligations.AssemblerReadsWrittenCommand
  intro i
  rw [showInstr_eq, assembleLine_written (opText_mem (opOf i)) (writes_operandTexts i), assembleTokens_asmOperands]

/-- Settles O51: `CRC.BYTES` has one command per byte, and no blob has a field whose length does not fit its byte. -/
theorem undefinedPseudoOperands : Obligations.UndefinedPseudoOperands := by
  unfold Obligations.UndefinedPseudoOperands
  refine ⟨rfl, fun chan crclen address payload hlong => ?tooLong⟩
  case tooLong =>
    have hblob : fieldBlob chan crclen address payload = none := if_neg (by omega)
    exact congrArg (Option.map (fun blob => [Instr.frmBuild blob])) hblob

end Machine
end Sys2Proof
end
